-- ==== Sys2Proof/Word.lean ====
section
/-! DEFINITION. The value types of the block (00_scope.md R4, R5, R6, 10_state.md R11). -/

namespace Sys2Proof

/-- A FixedBigInt: the 256-bit pattern one register holds (R10, R11). Its unsigned reading `U` is `toNat`, its
two's-complement reading `S` is `toInt` (R6). -/
abbrev Value := BitVec 256

/-- A machine word, or limb, of 32 bits (R4). -/
abbrev Word := BitVec 32

/-- One byte of the TEXT space (R19). -/
abbrev Byte := BitVec 8

/-- A register index, 0..7 (R10, R30). -/
abbrev RegIdx := Fin 8

/-- A word index within a register, 0 the least significant (R30, R31). -/
abbrev WordIdx := Fin 8

end Sys2Proof
end

