-- ==== Sys2Proof/Config.lean ====
section
/-! DEFINITION. What the spec leaves open (93_implementation_defined.md U1, U3, U5). None of these has a body, so a proof
holds whatever they are. Every other parameter of R4 is a number the spec fixes and stands where it is used. -/

namespace Sys2Proof

/-- `DIV0`: what a division by zero writes, quotient and remainder, as a function of the dividend alone (R4, R127).
DESIGN CHOICE (log entry 6), safe: the spec's open parameter, left without a body. -/
opaque Config.div0 : Value → Value × Value

/-- DESIGN CHOICE (log entry 1), unsafe: the content of register `r` that nothing has written since reset number `n`
(R14, R26, R206); reset 0 is the one that leaves `State.reset`. -/
opaque Config.unwrittenReg : Nat → RegIdx → Value

/-- DESIGN CHOICE (log entry 2), unsafe: the content of `DOUT` after reset number `n`, before a GETW (R20). -/
opaque Config.unwrittenDout : Nat → Word

end Sys2Proof
end

