-- ==== Sys2Proof/Machine/Arith.lean ====
section
/-! DEFINITION. The result laws of the arithmetic commands: each result as a function of the operands (00_scope.md R9 (a)). -/

namespace Sys2Proof.Machine

/-- `wrap_256(n)`: the pattern whose unsigned value is `n mod 2^256` (R6). -/
def wrap256 (n : Int) : Value := BitVec.ofInt 256 n

/-- `MIN`, the pattern with only bit 255 set (R6). -/
def minValue : Value := BitVec.ofNat 256 (2 ^ 255)

/-- `MAX`, the pattern with every bit but 255 set (R6). -/
def maxValue : Value := BitVec.ofNat 256 (2 ^ 255 - 1)

/-- The result law of ADD (R82). -/
def addValue (a b : Value) : Value := wrap256 (a.toInt + b.toInt)

/-- The result law of SUB (R83). -/
def subValue (a b : Value) : Value := wrap256 (a.toInt - b.toInt)

/-- The result law of NEG (R84). -/
def negValue (a : Value) : Value := wrap256 (-a.toInt)

/-- The result law of ABS (R85). -/
def absValue (a : Value) : Value := if a.msb then negValue a else a

/-- The magnitude of a value: the result of ABS read as unsigned, in `[0, 2^255]` (00_scope.md glossary, R87). -/
def magnitude (a : Value) : Nat := (absValue a).toNat

/-- The result law of SHL1 (R100). -/
def shl1Value (a : Value) (cin : Bool) : Value := wrap256 (2 * (a.toNat : Int) + cin.toNat)

/-- The result law of SHR1 (R101): every bit moves down by one, and bit 255 is the old sign OR the incoming bit. -/
def shr1Value (a : Value) (cin : Bool) : Value := BitVec.cons (a.msb || cin) (a.extractLsb' 1 255)

/-- The result law of MUL (R110). -/
def mulValue (a b : Value) : Value := wrap256 (a.toInt * b.toInt)

/-- `trunc(S(a) / S(b))`, the quotient rounded toward zero (R6). -/
def truncQuot (a b : Value) : Int := Int.tdiv a.toInt b.toInt

/-- The result law of DIV, and the quotient of DIVREM (R124, R126): with a zero divisor the first half of `DIV0(a)` (R127). -/
def divValue (a b : Value) : Value :=
  if b = 0#256 then (Config.div0 a).1 else wrap256 (truncQuot a b)

/-- The result law of REM, and the remainder of DIVREM (R125, R126): with a zero divisor the second half of `DIV0(a)` (R127). -/
def remValue (a b : Value) : Value :=
  if b = 0#256 then (Config.div0 a).2 else wrap256 (a.toInt - b.toInt * truncQuot a b)

end Sys2Proof.Machine
end

