-- ==== Sys2Proof/Machine/Operands.lean ====
section
/-! DEFINITION. The operand forms that are not a register (30_encoding.md R49) and the word view of a value (00_scope.md R5). -/

namespace Sys2Proof.Machine

/-- Word `j` of a value, bits `32j+31 : 32j` (R5, R11, R31). -/
def wordOf (v : Value) (j : Fin 8) : Word := v.extractLsb' (32 * j.val) 32

/-- FROMINT's immediate: `OPD[63:0]` sign-extended to 256 bits (R49, R66). -/
def immValue (imm : BitVec 64) : Value := imm.signExtend 256

/-- TODEC's capacity: `U(OPD[31:0])` (R49). -/
def capacity (cap : BitVec 32) : Nat := cap.toNat

end Sys2Proof.Machine
end

