-- ==== Sys2Proof/Syntax.lean ====
section
/-! DEFINITION. The commands of the block (30_encoding.md R45 to R48), their formats, and what a host can present. -/

namespace Sys2Proof

/-- The sixteen operations, in the order of `OPC` (R48). -/
inductive Opcode where
  | zero | fromint | mov | add | sub | neg | abs | shl1
  | shr1 | mul | div | rem | divrem | iszero | getw | todec
  deriving DecidableEq, Repr

/-- The nine formats: which fields a command uses (R47). -/
inductive Format where
  | z | i | r2 | r3 | s | d | t | w | c
  deriving DecidableEq, Repr

/-- The format column of R47 and R48. -/
def Opcode.format : Opcode → Format
  | .zero => .z
  | .fromint => .i
  | .mov | .neg | .abs => .r2
  | .add | .sub | .mul | .div | .rem => .r3
  | .shl1 | .shr1 => .s
  | .divrem => .d
  | .iszero => .t
  | .getw => .w
  | .todec => .c

/-- A command with its operands taken out of the fields (R46, R49). Every field's type has exactly the values its bits
can hold, so every term is an instruction the hardware has (R51). -/
inductive Instr where
  /-- ZERO xd (R65). -/
  | zero (rd : RegIdx)
  /-- FROMINT xd, imm: `imm` is `OPD[63:0]` (R66). -/
  | fromint (rd : RegIdx) (imm : BitVec 64)
  /-- MOV xd, xa (R68). -/
  | mov (rd ra : RegIdx)
  /-- ADD xd, xa, xb (R82). -/
  | add (rd ra rb : RegIdx)
  /-- SUB xd, xa, xb (R83). -/
  | sub (rd ra rb : RegIdx)
  /-- NEG xd, xa (R84). -/
  | neg (rd ra : RegIdx)
  /-- ABS xd, xa (R85). -/
  | abs (rd ra : RegIdx)
  /-- SHL1 xd, xa, c: `cin` is the incoming least significant bit (R100). -/
  | shl1 (rd ra : RegIdx) (cin : Bool)
  /-- SHR1 xd, xa, c: `cin` is the incoming most significant bit (R101). -/
  | shr1 (rd ra : RegIdx) (cin : Bool)
  /-- MUL xd, xa, xb (R110). -/
  | mul (rd ra rb : RegIdx)
  /-- DIV xd, xa, xb (R124). -/
  | div (rd ra rb : RegIdx)
  /-- REM xd, xa, xb (R125). -/
  | rem (rd ra rb : RegIdx)
  /-- DIVREM xq, xr, xa, xb: `rd` receives the quotient, `rd2` the remainder (R126). -/
  | divrem (rd rd2 ra rb : RegIdx)
  /-- ISZERO xa (R140). -/
  | iszero (ra : RegIdx)
  /-- GETW xa, j (R141). -/
  | getw (ra : RegIdx) (widx : WordIdx)
  /-- TODEC xa, cap: `cap` is `OPD[31:0]` (R150). -/
  | todec (ra : RegIdx) (cap : BitVec 32)
  deriving DecidableEq, Repr

/-- The operation of a command (R48). -/
def Instr.opcode : Instr → Opcode
  | .zero .. => .zero
  | .fromint .. => .fromint
  | .mov .. => .mov
  | .add .. => .add
  | .sub .. => .sub
  | .neg .. => .neg
  | .abs .. => .abs
  | .shl1 .. => .shl1
  | .shr1 .. => .shr1
  | .mul .. => .mul
  | .div .. => .div
  | .rem .. => .rem
  | .divrem .. => .divrem
  | .iszero .. => .iszero
  | .getw .. => .getw
  | .todec .. => .todec

/-- The registers a command reads, the "reads" column of R13. -/
def Instr.sources : Instr → List RegIdx
  | .zero _ | .fromint _ _ => []
  | .mov _ ra | .neg _ ra | .abs _ ra | .shl1 _ ra _ | .shr1 _ ra _ => [ra]
  | .add _ ra rb | .sub _ ra rb | .mul _ ra rb | .div _ ra rb | .rem _ ra rb | .divrem _ _ ra rb => [ra, rb]
  | .iszero ra | .getw ra _ | .todec ra _ => [ra]

/-- The registers a command writes, the "writes" column of R13. -/
def Instr.dests : Instr → List RegIdx
  | .zero rd | .fromint rd _ => [rd]
  | .mov rd _ | .neg rd _ | .abs rd _ | .shl1 rd _ _ | .shr1 rd _ _ => [rd]
  | .add rd _ _ | .sub rd _ _ | .mul rd _ _ | .div rd _ _ | .rem rd _ _ => [rd]
  | .divrem rd rd2 _ _ => [rd, rd2]
  | .iszero _ | .getw _ _ | .todec _ _ => []

/-- The pair `(CMD, OPD)` a host presents (R45). -/
structure Command where
  /-- `CMD[31:0]`. -/
  cmd : BitVec 32
  /-- `OPD[63:0]`. -/
  opd : BitVec 64
  deriving DecidableEq, Repr

/-- What the host can do to the block (60_exceptions.md R200). -/
inductive HostEvent where
  /-- Present a command (70_reset_and_hazards.md R208). -/
  | command (c : Command)
  /-- Apply reset (R205). -/
  | reset
  deriving DecidableEq, Repr

end Sys2Proof
end

