-- ==== Sys2Proof/WellFormed.lean ====
section
/-! DEFINITION. Well-formedness: which bits a format uses, and the canonical form of a command word (30_encoding.md R47, R50). -/

namespace Sys2Proof

/-- The `CMD` bits a format uses (R46, R47): `OPC` 31:28, `RD` 27:25, `RA` 24:22, `RB` 21:19, `RD2` 18:16, `CIN` 15,
`WIDX` 14:12. -/
def Format.cmdMask : Format → BitVec 32
  | .z | .i => 0xFE000000#32
  | .r2 => 0xFFC00000#32
  | .r3 => 0xFFF80000#32
  | .s => 0xFFC08000#32
  | .d => 0xFFFF0000#32
  | .t | .c => 0xF1C00000#32
  | .w => 0xF1C07000#32

/-- The `OPD` bits a format uses (R45, R47). -/
def Format.opdMask : Format → BitVec 64
  | .i => 0xFFFFFFFFFFFFFFFF#64
  | .c => 0x00000000FFFFFFFF#64
  | _ => 0#64

/-- Every instruction is well formed: each operand's type holds exactly the values its field can (R49), and there is no
illegal encoding (R51). -/
def Instr.WellFormed (_ : Instr) : Bool := true

/-- A command word of format `f` is canonical when every bit the format does not use is 0 (R50). -/
def Command.canonicalFor (c : Command) (f : Format) : Bool :=
  c.cmd &&& ~~~ f.cmdMask == 0#32 && c.opd &&& ~~~ f.opdMask == 0#64

end Sys2Proof
end

