-- ==== Sys2Proof/Decode.lean ====
section
/-! DEFINITION. Decoding and encoding of command words (30_encoding.md R45 to R51). Decoding is total: every command word
is a command (R51). -/

namespace Sys2Proof

/-- The register number in the three bits that start at bit `lo` of `CMD` (R46, R49). -/
def regField (w : BitVec 32) (lo : Nat) : Fin 8 := (w.extractLsb' lo 3).toFin

/-- The opcode map, by the bits 31, 30, 29, 28 of `CMD` (R48): all sixteen values are defined. -/
def opcodeOfBits : Bool → Bool → Bool → Bool → Opcode
  | false, false, false, false => .zero
  | false, false, false, true => .fromint
  | false, false, true, false => .mov
  | false, false, true, true => .add
  | false, true, false, false => .sub
  | false, true, false, true => .neg
  | false, true, true, false => .abs
  | false, true, true, true => .shl1
  | true, false, false, false => .shr1
  | true, false, false, true => .mul
  | true, false, true, false => .div
  | true, false, true, true => .rem
  | true, true, false, false => .divrem
  | true, true, false, true => .iszero
  | true, true, true, false => .getw
  | true, true, true, true => .todec

/-- The operation a command word selects: "a decoder needs only `CMD[31:28]`" (R48). -/
def opcodeField (w : BitVec 32) : Opcode :=
  opcodeOfBits (w.getLsbD 31) (w.getLsbD 30) (w.getLsbD 29) (w.getLsbD 28)

/-- The instruction a command word stands for (R46 to R49); the bits its format does not use are not looked at (R50). -/
def decode (c : Command) : Instr :=
  let rd := regField c.cmd 25
  let ra := regField c.cmd 22
  let rb := regField c.cmd 19
  let rd2 := regField c.cmd 16
  let cin := c.cmd.getLsbD 15
  let widx := regField c.cmd 12
  match opcodeField c.cmd with
  | .zero => .zero rd
  | .fromint => .fromint rd c.opd
  | .mov => .mov rd ra
  | .add => .add rd ra rb
  | .sub => .sub rd ra rb
  | .neg => .neg rd ra
  | .abs => .abs rd ra
  | .shl1 => .shl1 rd ra cin
  | .shr1 => .shr1 rd ra cin
  | .mul => .mul rd ra rb
  | .div => .div rd ra rb
  | .rem => .rem rd ra rb
  | .divrem => .divrem rd rd2 ra rb
  | .iszero => .iszero ra
  | .getw => .getw ra widx
  | .todec => .todec ra (c.opd.extractLsb' 0 32)

/-- The value of `OPC` for each operation (R48). -/
def opcodeBits : Opcode → BitVec 4
  | .zero => 0x0#4
  | .fromint => 0x1#4
  | .mov => 0x2#4
  | .add => 0x3#4
  | .sub => 0x4#4
  | .neg => 0x5#4
  | .abs => 0x6#4
  | .shl1 => 0x7#4
  | .shr1 => 0x8#4
  | .mul => 0x9#4
  | .div => 0xA#4
  | .rem => 0xB#4
  | .divrem => 0xC#4
  | .iszero => 0xD#4
  | .getw => 0xE#4
  | .todec => 0xF#4

/-- A `CMD` word laid out field by field, bits 11:0 zero (R46). -/
def packCmd (op : Opcode) (rd ra rb rd2 : Fin 8) (cin : Bool) (widx : Fin 8) : BitVec 32 :=
  opcodeBits op ++ BitVec.ofFin (w := 3) rd ++ BitVec.ofFin (w := 3) ra ++ BitVec.ofFin (w := 3) rb
    ++ BitVec.ofFin (w := 3) rd2 ++ BitVec.ofBool cin ++ BitVec.ofFin (w := 3) widx ++ 0#12

/-- The canonical command word of an instruction, the last column of R48. -/
def encode : Instr → Command
  | .zero rd => ⟨packCmd .zero rd 0 0 0 false 0, 0⟩
  | .fromint rd imm => ⟨packCmd .fromint rd 0 0 0 false 0, imm⟩
  | .mov rd ra => ⟨packCmd .mov rd ra 0 0 false 0, 0⟩
  | .add rd ra rb => ⟨packCmd .add rd ra rb 0 false 0, 0⟩
  | .sub rd ra rb => ⟨packCmd .sub rd ra rb 0 false 0, 0⟩
  | .neg rd ra => ⟨packCmd .neg rd ra 0 0 false 0, 0⟩
  | .abs rd ra => ⟨packCmd .abs rd ra 0 0 false 0, 0⟩
  | .shl1 rd ra cin => ⟨packCmd .shl1 rd ra 0 0 cin 0, 0⟩
  | .shr1 rd ra cin => ⟨packCmd .shr1 rd ra 0 0 cin 0, 0⟩
  | .mul rd ra rb => ⟨packCmd .mul rd ra rb 0 false 0, 0⟩
  | .div rd ra rb => ⟨packCmd .div rd ra rb 0 false 0, 0⟩
  | .rem rd ra rb => ⟨packCmd .rem rd ra rb 0 false 0, 0⟩
  | .divrem rd rd2 ra rb => ⟨packCmd .divrem rd ra rb rd2 false 0, 0⟩
  | .iszero ra => ⟨packCmd .iszero 0 ra 0 0 false 0, 0⟩
  | .getw ra widx => ⟨packCmd .getw 0 ra 0 0 false widx, 0⟩
  | .todec ra cap => ⟨packCmd .todec 0 ra 0 0 false 0, cap.setWidth 64⟩

/-- The canonical form of a command word: the bits its format does not use are cleared (R50). -/
def canonicalForm (c : Command) : Command :=
  let f := (opcodeField c.cmd).format
  ⟨c.cmd &&& f.cmdMask, c.opd &&& f.opdMask⟩

/-- A command word is canonical when its unused bits are all zero (R50). -/
def isCanonical (c : Command) : Bool := c.canonicalFor (opcodeField c.cmd).format

/-- A command whose bits are `w`, `CMD` in bits 31:0 and `OPD` in bits 95:32, of which the lowest `nbits` count. -/
def commandOfTableWord (nbits w : Nat) : Command :=
  ⟨BitVec.ofNat 32 (w % 2 ^ nbits), BitVec.ofNat 64 ((w % 2 ^ nbits) / 2 ^ 32)⟩

/-- The instruction the decoder reads from the bits `w`, numbered as spec/opcode_table.json numbers them. Never `none`:
there is no illegal encoding (R51). -/
def decodeTableWord (nbits w : Nat) : Option Instr := some (decode (commandOfTableWord nbits w))

end Sys2Proof
end

