-- ==== Sys2Proof/Machine/State.lean ====
section
/-! DEFINITION. The state of the block (10_state.md R10 to R26), its reset value, and the reasons a step can stop. -/

namespace Sys2Proof.Machine

/-- The reasons a step could stop with a fault: there is none. The block raises no exception (60_exceptions.md R185),
takes no trap (R192), and reading an unwritten register is not detected (R14). -/
inductive Fault where
  deriving DecidableEq, Repr

/-- The reasons a step could be refused. -/
inductive Refusal where
  /-- An instruction without a meaning, by its mnemonic. No arm of `exec` raises it: every command of the table has
  its meaning. Were one to raise it, that would be safe: the model would stop where the hardware goes on. -/
  | notModelled (mnemonic : String)
  deriving DecidableEq, Repr

/-- What the spec gives the block (R10 to R20), and the host's part of the interface (R200). -/
structure State where
  /-- The registers `x[0]`..`x[7]` (R10). -/
  x : Vector Value 8
  /-- The written mark of each register (R14, R26). -/
  written : Vector Bool 8
  /-- `Z`, the last ISZERO result (R16). -/
  z : Bool
  /-- `CAPF`, the capacity-failure marker of the last TODEC (R17). -/
  capf : Bool
  /-- `LEN`, the number of valid bytes in TEXT (R18). -/
  len : BitVec 7
  /-- `TEXT`, as the list of its cells that hold a value, indexes rising (R19, 20_memory.md R37). DESIGN CHOICE (log
  entry 3), safe: an unspecified byte has no cell. -/
  text : List Host.Cell
  /-- `DOUT`, the word of the last GETW (R20). -/
  dout : Word
  /-- DESIGN CHOICE (log entry 4), safe: the model's own field, what the host is still going to present, first event first (70_reset_and_hazards.md R208). -/
  pending : List HostEvent
  /-- DESIGN CHOICE (log entry 5), safe: the model's own field, how many reset events have happened, the index of the free values of Config. -/
  resets : Nat
  deriving DecidableEq, Repr

/-- The canonical form of the TEXT memory: indexes strictly rising, all of them in 0..77 (R19, R37). An index that is not
listed holds no value, so no entry can equal what an unlisted index reads as. -/
abbrev Memory.wf (m : List Host.Cell) : Prop := (m.map Prod.fst).Pairwise (· < ·) ∧ ∀ c ∈ m, c.1 < 78

/-- The registers after reset number `n`: unwritten, their contents unspecified (R26, R205). -/
def unwrittenRegs (n : Nat) : Vector Value 8 :=
  #v[Config.unwrittenReg n 0, Config.unwrittenReg n 1, Config.unwrittenReg n 2, Config.unwrittenReg n 3,
    Config.unwrittenReg n 4, Config.unwrittenReg n 5, Config.unwrittenReg n 6, Config.unwrittenReg n 7]

/-- No register is written. -/
def noneWritten : Vector Bool 8 := #v[false, false, false, false, false, false, false, false]

/-- The state right after reset (R26, R205, R206), with nothing presented by the host yet. -/
def State.reset : State where
  x := unwrittenRegs 0
  written := noneWritten
  z := false
  capf := false
  len := 0#7
  text := []
  dout := Config.unwrittenDout 0
  pending := []
  resets := 0

end Sys2Proof.Machine
end

