-- ==== Sys2Proof/Machine/Flags.lean ====
section
/-! DEFINITION. The one condition output and the packed status view. There is no carry, overflow, sign or shifted-out flag
(10_state.md R21). -/

namespace Sys2Proof.Machine

/-- What ISZERO writes to `Z`: whether the operand is the all-zero pattern (45_observe.md R140). -/
def zeroFlag (a : Value) : Bool := a == 0#256

/-- `STATUS`: bit 0 `Z`, bit 1 `CAPF`, bits 14:8 `LEN`, all other bits 0 (R22). -/
def statusView (s : State) : BitVec 32 :=
  0#17 ++ s.len ++ 0#6 ++ BitVec.ofBool s.capf ++ BitVec.ofBool s.z

end Sys2Proof.Machine
end

