-- ==== Sys2Proof/Machine/Ops.lean ====
section
/-! DEFINITION. The named operations over registers, the TEXT memory, output state, and the host's events. There is no
exception to take and none to return from: the block has no trap mechanism (60_exceptions.md R185, R192). -/

namespace Sys2Proof.Machine

/-- The content of register `r` (R7 `x[i]`). No register is hardwired (R10); an unwritten one gives whatever is there (R14). -/
def readReg (s : State) (r : Fin 8) : Value := s.x[r.val]

/-- Writes register `r`, which is written from then on (R7 `x[i] <- v`, R14). DEDUCED (log entry 10), safe: whatever the
sources' marks are. -/
def writeReg (s : State) (r : Fin 8) (v : Value) : State :=
  { s with x := s.x.set r.val v, written := s.written.set r.val true }

/-- Writes `Z` (R16). -/
def writeZ (s : State) (b : Bool) : State := { s with z := b }

/-- Writes `DOUT` (R20). -/
def writeDout (s : State) (w : Word) : State := { s with dout := w }

/-- The byte of TEXT at index `a`, if it holds a value (R19). -/
def cellAt : List Host.Cell → Nat → Option Byte
  | [], _ => none
  | (k, b) :: m, a => if k = a then some b else cellAt m a

/-- Puts byte `b` at index `a`, keeping the indexes rising. -/
def putCell : List Host.Cell → Nat → Byte → List Host.Cell
  | [], a, b => [(a, b)]
  | (k, c) :: m, a, b =>
    if a < k then (a, b) :: (k, c) :: m
    else if a = k then (a, b) :: m
    else (k, c) :: putCell m a b

/-- `MemWrite(a, n, v)`: the bytes `v`, the first at index `a` (R37). The space has the indexes 0..77 and no rule writes
outside them (R37); DESIGN CHOICE (log entry 8), unsafe if it could be reached: a byte beyond 77 has no cell. -/
def memWrite : List Host.Cell → Nat → List Byte → List Host.Cell
  | m, _, [] => m
  | m, a, b :: bs => memWrite (if a < 78 then putCell m a b else m) (a + 1) bs

/-- `MemRead(a, n)`: the `n` bytes from index `a` on, if all of them hold a value (R37). -/
def memRead (m : List Host.Cell) : Nat → Nat → Option (List Byte)
  | _, 0 => some []
  | a, n + 1 =>
    match cellAt m a, memRead m (a + 1) n with
    | some b, some bs => some (b :: bs)
    | _, _ => none

/-- What TODEC leaves (R150): a text that fits, at the start of TEXT, or the capacity failure with the empty result (R155).
Every other byte of TEXT is unspecified afterwards (R19), so it holds no value. -/
def deliverText (s : State) : Option (List Byte) → State
  | some t => { s with capf := false, len := BitVec.ofNat 7 t.length, text := memWrite [] 0 t }
  | none => { s with capf := true, len := 0#7, text := [] }

/-- A reset event (R205): registers unwritten and unspecified, flags 0, TEXT and DOUT unspecified. -/
def applyReset (s : State) : State :=
  { s with
    x := unwrittenRegs (s.resets + 1)
    written := noneWritten
    z := false
    capf := false
    len := 0#7
    text := []
    dout := Config.unwrittenDout (s.resets + 1)
    resets := s.resets + 1 }

/-- The next event of the host, if it has one (R208). -/
def nextEvent (s : State) : Option HostEvent := s.pending.head?

/-- The state once that event has been taken from the host: the block holds at most one command (R208). -/
def takeEvent (s : State) : State := { s with pending := s.pending.tail }

/-- The state in which the host's next event is the command `c`. -/
def presentCommand (s : State) (c : Command) : State := { s with pending := .command c :: s.pending }

/-- What the host can sample at any time (R200); sampling changes nothing (R36). -/
structure HostView where
  z : Bool
  capf : Bool
  len : BitVec 7
  /-- `TEXT[0 .. LEN-1]`. -/
  text : Option (List Byte)
  dout : Word
  status : BitVec 32
  deriving DecidableEq, Repr

/-- The output state as the host sees it (R200). -/
def hostView (s : State) : HostView where
  z := s.z
  capf := s.capf
  len := s.len
  text := memRead s.text 0 s.len.toNat
  dout := s.dout
  status := statusView s

end Sys2Proof.Machine
end

