-- ==== Sys2Proof/Machine/Construct.lean ====
section
/-! DEFINITION. Construction and copy: ZERO, FROMINT, MOV (40_construct_move.md R65 to R68). -/

namespace Sys2Proof.Machine

/-- The outcome of a command that writes one register and nothing else (10_state.md R13). -/
def finishReg (s : State) (rd : Fin 8) (v : Value) : Host.Outcome State Fault Refusal := .next (writeReg s rd v)

/-- ZERO (R65). -/
def execZero (rd : RegIdx) (s : State) : Host.Outcome State Fault Refusal := finishReg s rd 0#256

/-- FROMINT (R66). -/
def execFromint (rd : RegIdx) (imm : BitVec 64) (s : State) : Host.Outcome State Fault Refusal :=
  finishReg s rd (immValue imm)

/-- MOV (R68). `RD = RA` changes nothing (R68), not even the written mark: it is a write only if the source was written
(30_encoding.md R52). DEDUCED (log entry 9), safe. -/
def execMov (rd ra : RegIdx) (s : State) : Host.Outcome State Fault Refusal :=
  .next (if rd = ra then s else writeReg s rd (readReg s ra))

end Sys2Proof.Machine
end

