-- ==== Sys2Proof/Machine/Adder.lean ====
section
/-! DEFINITION. The adder family: ADD, SUB, NEG, ABS (41_add_sub_neg_abs.md R82 to R85). -/

namespace Sys2Proof.Machine

/-- ADD (R82). -/
def execAdd (rd ra rb : RegIdx) (s : State) : Host.Outcome State Fault Refusal :=
  finishReg s rd (addValue (readReg s ra) (readReg s rb))

/-- SUB (R83). -/
def execSub (rd ra rb : RegIdx) (s : State) : Host.Outcome State Fault Refusal :=
  finishReg s rd (subValue (readReg s ra) (readReg s rb))

/-- NEG (R84). -/
def execNeg (rd ra : RegIdx) (s : State) : Host.Outcome State Fault Refusal :=
  finishReg s rd (negValue (readReg s ra))

/-- ABS (R85). -/
def execAbs (rd ra : RegIdx) (s : State) : Host.Outcome State Fault Refusal :=
  finishReg s rd (absValue (readReg s ra))

end Sys2Proof.Machine
end

