-- ==== Sys2Proof/Machine/MulDiv.lean ====
section
/-! DEFINITION. The multiplier and the divider: MUL, DIV, REM, DIVREM (43_multiply.md R110, 44_divide.md R124 to R127). -/

namespace Sys2Proof.Machine

/-- MUL (R110). -/
def execMul (rd ra rb : RegIdx) (s : State) : Host.Outcome State Fault Refusal :=
  finishReg s rd (mulValue (readReg s ra) (readReg s rb))

/-- DIV (R124), a zero divisor included (R127, R188). -/
def execDiv (rd ra rb : RegIdx) (s : State) : Host.Outcome State Fault Refusal :=
  finishReg s rd (divValue (readReg s ra) (readReg s rb))

/-- REM (R125), a zero divisor included (R127, R188). -/
def execRem (rd ra rb : RegIdx) (s : State) : Host.Outcome State Fault Refusal :=
  finishReg s rd (remValue (readReg s ra) (readReg s rb))

/-- DIVREM (R126): both results from the old operands (R209), the quotient written first, so that the remainder stays
when `rd2 = rd`. -/
def execDivrem (rd rd2 ra rb : RegIdx) (s : State) : Host.Outcome State Fault Refusal :=
  let a := readReg s ra
  let b := readReg s rb
  finishReg (writeReg s rd (divValue a b)) rd2 (remValue a b)

end Sys2Proof.Machine
end

