-- ==== Sys2Proof/Machine/Observe.lean ====
section
/-! DEFINITION. The observation commands: ISZERO, GETW (45_observe.md R140, R141). -/

namespace Sys2Proof.Machine

/-- ISZERO (R140). -/
def execIszero (ra : RegIdx) (s : State) : Host.Outcome State Fault Refusal :=
  .next (writeZ s (zeroFlag (readReg s ra)))

/-- GETW (R141). -/
def execGetw (ra : RegIdx) (widx : WordIdx) (s : State) : Host.Outcome State Fault Refusal :=
  .next (writeDout s (wordOf (readReg s ra) widx))

end Sys2Proof.Machine
end

