-- ==== Sys2Proof/Machine/Decimal.lean ====
section
/-! DEFINITION. The decimal renderer's result law: the text of a value and whether it fits (46_decimal_render.md R151, R152, R154). -/

namespace Sys2Proof.Machine

/-- Puts the decimal digits of `n` in front of `acc`, most significant first; `fuel` bounds the number of digits. -/
def digitsLoop : Nat → Nat → List Nat → List Nat
  | 0, _, acc => acc
  | fuel + 1, n, acc => if n < 10 then n :: acc else digitsLoop fuel (n / 10) (n % 10 :: acc)

/-- `digits(M)`: the decimal numeral of `m`, most significant digit first, without a leading zero; `digits(0)` is one
zero (R151). -/
def decDigits (m : Nat) : List Nat := digitsLoop (m + 1) m []

/-- The byte of a digit (R154). -/
def digitByte (d : Nat) : Byte := BitVec.ofNat 8 (0x30 + d)

/-- The byte of the minus sign (R154). -/
def minusByte : Byte := 0x2D#8

/-- The text of a value: the sign of a negative one, then the digits of the magnitude (R151); MIN's magnitude is `2^255`
(R156). -/
def decimalText (a : Value) : List Byte :=
  (if a.msb then [minusByte] else []) ++ (decDigits (magnitude a)).map digitByte

/-- `G = ceil(nd / 9)`, the number of 9-digit groups the magnitude needs (R152). -/
def groupCount (a : Value) : Nat := ((decDigits (magnitude a)).length + 8) / 9

/-- Whether a buffer of `cap` bytes takes the rendering: it fails iff `CAP < 9 G + 1` or `CAP < L + 1` (R152). -/
def textFits (a : Value) (cap : Nat) : Bool :=
  !(cap < 9 * groupCount a + 1 || cap < (decimalText a).length + 1)

/-- `RENDER(a, CAP)`: the text if it fits, `none` for a capacity failure (R150). -/
def render (a : Value) (cap : Nat) : Option (List Byte) :=
  if textFits a cap then some (decimalText a) else none

end Sys2Proof.Machine
end

