-- ==== Sys2Proof/Machine/Render.lean ====
section
/-! DEFINITION. The decimal renderer's command: TODEC (46_decimal_render.md R150). -/

namespace Sys2Proof.Machine

/-- TODEC (R150): it completes in both outcomes (60_exceptions.md R187). -/
def execTodec (ra : RegIdx) (cap : BitVec 32) (s : State) : Host.Outcome State Fault Refusal :=
  .next (deliverText s (render (readReg s ra) (capacity cap)))

end Sys2Proof.Machine
end

