-- ==== Sys2Proof/Machine/Shift.lean ====
section
/-! DEFINITION. The one-bit shifters: SHL1, SHR1 (42_shift.md R100, R101). -/

namespace Sys2Proof.Machine

/-- SHL1 (R100). -/
def execShl1 (rd ra : RegIdx) (cin : Bool) (s : State) : Host.Outcome State Fault Refusal :=
  finishReg s rd (shl1Value (readReg s ra) cin)

/-- SHR1 (R101, 90_conflicts.md C8). -/
def execShr1 (rd ra : RegIdx) (cin : Bool) (s : State) : Host.Outcome State Fault Refusal :=
  finishReg s rd (shr1Value (readReg s ra) cin)

end Sys2Proof.Machine
end

