-- ==== Sys2Proof/Machine/Dispatch.lean ====
section
/-! DEFINITION. One arm per command (30_encoding.md R48). -/

namespace Sys2Proof.Machine

def exec (i : Instr) (s : State) : Host.Outcome State Fault Refusal :=
  match i with
  | .zero rd => Sys2Proof.Machine.execZero rd s
  | .fromint rd imm => Sys2Proof.Machine.execFromint rd imm s
  | .mov rd ra => Sys2Proof.Machine.execMov rd ra s
  | .add rd ra rb => Sys2Proof.Machine.execAdd rd ra rb s
  | .sub rd ra rb => Sys2Proof.Machine.execSub rd ra rb s
  | .neg rd ra => Sys2Proof.Machine.execNeg rd ra s
  | .abs rd ra => Sys2Proof.Machine.execAbs rd ra s
  | .shl1 rd ra cin => Sys2Proof.Machine.execShl1 rd ra cin s
  | .shr1 rd ra cin => Sys2Proof.Machine.execShr1 rd ra cin s
  | .mul rd ra rb => Sys2Proof.Machine.execMul rd ra rb s
  | .div rd ra rb => Sys2Proof.Machine.execDiv rd ra rb s
  | .rem rd ra rb => Sys2Proof.Machine.execRem rd ra rb s
  | .divrem rd rd2 ra rb => Sys2Proof.Machine.execDivrem rd rd2 ra rb s
  | .iszero ra => Sys2Proof.Machine.execIszero ra s
  | .getw ra widx => Sys2Proof.Machine.execGetw ra widx s
  | .todec ra cap => Sys2Proof.Machine.execTodec ra cap s

end Sys2Proof.Machine
end

