-- ==== Sys2Proof/Machine/Step.lean ====
section
/-! DEFINITION. One step: the host's next event (70_reset_and_hazards.md R205, R208, R213). The block fetches nothing
(10_state.md R15). -/

namespace Sys2Proof.Machine

/-- One step: the next command the host presents is executed whole (R208), a reset event resets the block (R205), and
with nothing presented the block holds its state (R213). -/
def step (s : State) : Host.Outcome State Fault Refusal :=
  match nextEvent s with
  | none => .next s
  | some .reset => .next (applyReset (takeEvent s))
  | some (.command c) => exec (decode c) (takeEvent s)

/-- `s` with the command whose bits are `w` presented next (log entry 4). -/
def State.withFetchWord (s : State) (nbits w : Nat) : State := presentCommand s (commandOfTableWord nbits w)

end Sys2Proof.Machine
end

