-- ==== Sys2Proof/Machine/Datapath.lean ====
section
/-! DEFINITION. The reference datapaths (00_scope.md R9 (b)): the word-by-word algorithms that compute the result laws.
The meanings of the commands are the result laws; nothing here is architectural state (10_state.md R25). -/

namespace Sys2Proof.Machine

/-- The eight words of a value, least significant first (R11). -/
def toWords (v : Value) : List Word := (List.finRange 8).map (wordOf v)

/-- The value of a list of words, least significant first. -/
def ofWords : List Word → Value
  | [] => 0#256
  | w :: ws => w.setWidth 256 ||| (ofWords ws <<< 32)

/-- One carry chain over words: each sum is widened to 64 bits, its low 32 bits are the result word and bit 32 is the
carry into the next word (R80, 90_conflicts.md C5). -/
def addcWords : List Word → List Word → Bool → List Word
  | a :: as, b :: bs, c =>
    let s : BitVec 64 := a.setWidth 64 + b.setWidth 64 + (BitVec.ofBool c).setWidth 64
    s.setWidth 32 :: addcWords as bs (s.getLsbD 32)
  | _, _, _ => []

/-- `ADDC(a, b, c0)` (R80); the carry out of word 7 is dropped. -/
def addc (a b : Value) (c0 : Bool) : Value := ofWords (addcWords (toWords a) (toWords b) c0)

/-- The datapath of ADD (R82). -/
def addPath (a b : Value) : Value := addc a b false

/-- The datapath of SUB (R83). -/
def subPath (a b : Value) : Value := addc a (~~~b) true

/-- The datapath of NEG (R84). -/
def negPath (a : Value) : Value := addc 0#256 (~~~a) true

/-- `SIGNMASK(a)`: every bit equals `a[255]` (R86). -/
def signMask (a : Value) : Value := BitVec.fill 256 a.msb

/-- The datapath of ABS: add the mask, then xor it (R85). -/
def absPath (a : Value) : Value := addc a (signMask a) false ^^^ signMask a

/-- The left shift over words, lowest word first, `c` the bit shifted in (R100). -/
def shlWords : List Word → Bool → List Word
  | [], _ => []
  | a :: as, c => ((a <<< 1) ||| (BitVec.ofBool c).setWidth 32) :: shlWords as (a.getLsbD 31)

/-- The datapath of SHL1 (R100). -/
def shl1Path (a : Value) (cin : Bool) : Value := ofWords (shlWords (toWords a) cin)

/-- The logical right shift over words, highest word first, `c` the bit shifted in (R101). -/
def shrWords : List Word → Bool → List Word
  | [], _ => []
  | a :: as, c => BitVec.cons c (a.extractLsb' 1 31) :: shrWords as (a.getLsbD 0)

/-- The datapath of SHR1: the sign word first, its sign copied and the incoming bit OR-ed in, then words 6 down to 0 (R101). -/
def shr1Path (a : Value) (cin : Bool) : Value :=
  match (toWords a).reverse with
  | [] => 0#256
  | top :: rest =>
    let r7 : Word := top.sshiftRight 1 ||| ((BitVec.ofBool cin).setWidth 32 <<< 31)
    ofWords (r7 :: shrWords rest (top.getLsbD 0)).reverse

/-- The index pairs of the unsigned words 0..6 whose product lands inside the value (R111). -/
def productPairs : List (Fin 8 × Fin 8) :=
  ((List.finRange 8).flatMap fun i => (List.finRange 8).map fun j => (i, j)).filter
    fun p => p.1.val ≤ 6 && p.2.val ≤ 6 && p.1.val + p.2.val ≤ 7

/-- The magnitude product by accumulation: the products of the unsigned words, then the two cross terms with the signed
top word (R111). -/
def mulMagnitudes (ma mb : Value) : Value :=
  let acc := productPairs.foldl (init := 0#256) fun acc p =>
    addValue acc (wrap256 ((((wordOf ma p.1).toNat * (wordOf mb p.2).toNat * 2 ^ (32 * (p.1.val + p.2.val)) : Nat)) : Int))
  let acc := addValue acc (wrap256 ((wordOf ma 7).toInt * ((wordOf mb 0).toNat : Int) * 2 ^ (32 * 7)))
  addValue acc (wrap256 (((wordOf ma 0).toNat : Int) * (wordOf mb 7).toInt * 2 ^ (32 * 7)))

/-- The datapath of MUL: multiply the magnitudes, negate when the operand signs differ (R111). -/
def mulPath (a b : Value) : Value :=
  let acc := mulMagnitudes (absValue a) (absValue b)
  if (a.msb ^^ b.msb) then negValue acc else acc

/-- One step of the restoring divider on the pair `(Q, R)`: shift the pair left, subtract, keep or restore (R120). -/
def udivStep (d : Value) (qr : Value × Value) : Value × Value :=
  let q := shl1Value qr.1 false
  let r := shl1Value qr.2 qr.1.msb
  let t := subValue r d
  if t.msb then (q, addValue t d) else (q ||| 1#256, t)

/-- `n` steps of the restoring divider. -/
def udivLoop (d : Value) : Nat → Value × Value → Value × Value
  | 0, qr => qr
  | n + 1, qr => udivLoop d n (udivStep d qr)

/-- `UDIVREM(N, D)`: always 256 steps from remainder 0 and quotient register `N`; it returns `(Q, R)` (R120). -/
def udivrem (n d : Value) : Value × Value := udivLoop d 256 (n, 0#256)

/-- `SDIVREM(a, b)`: the sign wrapper; the remainder takes the sign of the dividend (R122, 90_conflicts.md C3). -/
def sdivrem (a b : Value) : Value × Value :=
  let qr := udivrem (absValue a) (absValue b)
  (if (a.msb ^^ b.msb) then negValue qr.1 else qr.1, if a.msb then negValue qr.2 else qr.2)

/-- `DIV0_ALGO`: what the step rules compute with a zero divisor (R127). The model does not rest on it: the commands
write `Config.div0`. -/
def div0Algo (a : Value) : Value × Value :=
  (if a = minValue then 2#256 else if a.msb then 1#256 else wrap256 (-1), a)

/-- `DIV0_DOC`: what the source's aside says of a zero divisor (R127). The model does not rest on it. -/
def div0Doc (a : Value) : Value × Value := (0#256, a)

/-- The zero test over words (45_observe.md R140). -/
def zeroPath (a : Value) : Bool := (toWords a).all (· == 0#32)

/-- `CHUNK`, `10^9` (R4). -/
def chunk : Value := 0x3B9ACA00#256

/-- `nine_digits(n)`: the nine digits `d8 .. d0`, zero-padded (R153). -/
def nineDigits (n : Nat) : List Nat := (List.range 9).reverse.map fun k => n / 10 ^ k % 10

/-- Peels 9-digit groups off a magnitude while slots remain, last peeled first in `buf`; returns what is left of the
magnitude (R153). -/
def peelGroups : Nat → Value → List Nat → Value × List Nat
  | 0, m, buf => (m, buf)
  | slots + 1, m, buf =>
    let qr := udivrem m chunk
    if qr.1 = 0#256 then (qr.1, qr.2.toNat :: buf) else peelGroups slots qr.1 (qr.2.toNat :: buf)

/-- Strips leading zeros, but keeps at least one digit (R153). -/
def stripZeros : List Nat → List Nat
  | 0 :: d :: ds => stripZeros (d :: ds)
  | ds => ds

/-- The datapath of TODEC: the text, or `none` when the slots run out or the sign has no byte (R153). -/
def renderPath (a : Value) (cap : Nat) : Option (List Byte) :=
  let slots := if cap < 10 then 0 else (cap - 1) / 9
  let peeled := peelGroups slots (absValue a) []
  if peeled.1 ≠ 0#256 ∨ peeled.2 = [] then none
  else
    let s := (if a.msb then [minusByte] else []) ++ (stripZeros (peeled.2.flatMap nineDigits)).map digitByte
    if cap < s.length + 1 then none else some s

end Sys2Proof.Machine
end

