-- ==== Sys2Proof/Machine/DatapathStep.lean ====
section
/-! DEFINITION. Every command at the level of its reference datapath (00_scope.md R9 (b)), for comparison with the meanings,
which follow the result laws. -/

namespace Sys2Proof.Machine

/-- The datapath of ZERO (R65). -/
def zeroWords : Value := ofWords (List.replicate 8 0x00000000#32)

/-- The datapath of FROMINT: low half to word 0, high half to word 1, the sign fills words 2 to 7 (R66). -/
def fromintPath (imm : BitVec 64) : Value :=
  let fill : Word := if imm.getLsbD 63 then 0xFFFFFFFF#32 else 0x00000000#32
  ofWords ([imm.extractLsb' 0 32, imm.extractLsb' 32 32] ++ List.replicate 6 fill)

/-- The state a command leaves when every result comes from its datapath (R65 to R153). -/
def execPath (i : Instr) (s : State) : State :=
  match i with
  | .zero rd => writeReg s rd zeroWords
  | .fromint rd imm => writeReg s rd (fromintPath imm)
  | .mov rd ra => if rd = ra then s else writeReg s rd (ofWords (toWords (readReg s ra)))
  | .add rd ra rb => writeReg s rd (addPath (readReg s ra) (readReg s rb))
  | .sub rd ra rb => writeReg s rd (subPath (readReg s ra) (readReg s rb))
  | .neg rd ra => writeReg s rd (negPath (readReg s ra))
  | .abs rd ra => writeReg s rd (absPath (readReg s ra))
  | .shl1 rd ra cin => writeReg s rd (shl1Path (readReg s ra) cin)
  | .shr1 rd ra cin => writeReg s rd (shr1Path (readReg s ra) cin)
  | .mul rd ra rb => writeReg s rd (mulPath (readReg s ra) (readReg s rb))
  | .div rd ra rb => writeReg s rd (sdivrem (readReg s ra) (readReg s rb)).1
  | .rem rd ra rb => writeReg s rd (sdivrem (readReg s ra) (readReg s rb)).2
  | .divrem rd rd2 ra rb =>
    let qr := sdivrem (readReg s ra) (readReg s rb)
    writeReg (writeReg s rd qr.1) rd2 qr.2
  | .iszero ra => writeZ s (zeroPath (readReg s ra))
  | .getw ra widx => writeDout s ((toWords (readReg s ra)).getD widx.val 0#32)
  | .todec ra cap => deliverText s (renderPath (readReg s ra) cap.toNat)

end Sys2Proof.Machine
end

