-- ==== Sys2Proof/Safety.lean ====
section
/-! DEFINITION. The terms in which claims speak: what a command leaves alone, what software owes the block
(70_reset_and_hazards.md R207), and the invariant of the reachable states. -/

namespace Sys2Proof.Machine

/-- The output state and the host's part are the same, TEXT read byte by byte (10_state.md R16 to R20). -/
def SameOutputs (s t : State) : Prop :=
  t.z = s.z ∧ t.capf = s.capf ∧ t.len = s.len ∧ (∀ a, cellAt t.text a = cellAt s.text a) ∧ t.dout = s.dout ∧
    t.pending = s.pending ∧ t.resets = s.resets

/-- The registers and their written marks are the same, except those of `ds`. -/
def SameRegsExcept (ds : List RegIdx) (s t : State) : Prop :=
  ∀ r : RegIdx, r ∉ ds → readReg t r = readReg s r ∧ t.written[r.val] = s.written[r.val]

/-- From `s` to `t` the register `rd` received `v` and is written, and nothing else changed (R13, R14). -/
def WritesOnly (rd : RegIdx) (v : Value) (s t : State) : Prop :=
  readReg t rd = v ∧ t.written[rd.val] = true ∧ SameRegsExcept [rd] s t ∧ SameOutputs s t

/-- From `s` to `t` everything but `CAPF`, `LEN` and `TEXT` is the same. -/
def SameButText (s t : State) : Prop :=
  SameRegsExcept [] s t ∧ t.z = s.z ∧ t.dout = s.dout ∧ t.pending = s.pending ∧ t.resets = s.resets

/-- Every register the command reads has been written (R207 point 2, 10_state.md R14). -/
def ReadsWritten (i : Instr) (s : State) : Prop := ∀ r ∈ i.sources, s.written[r.val] = true

/-- The command does not divide by zero (R207 point 4, 60_exceptions.md R188). -/
def DivisorNonzero : Instr → State → Prop
  | .div _ _ rb, s | .rem _ _ rb, s | .divrem _ _ _ rb, s => readReg s rb ≠ 0#256
  | .zero .., _ | .fromint .., _ | .mov .., _ | .add .., _ | .sub .., _ | .neg .., _ | .abs .., _ | .shl1 .., _
  | .shr1 .., _ | .mul .., _ | .iszero .., _ | .getw .., _ | .todec .., _ => True

/-- Two states that differ at most in the contents of registers no command has written since reset (R14). -/
def AgreeOnWritten (s t : State) : Prop :=
  t.written = s.written ∧ (∀ r : RegIdx, s.written[r.val] = true → readReg t r = readReg s r) ∧
    t.z = s.z ∧ t.capf = s.capf ∧ t.len = s.len ∧ t.text = s.text ∧ t.dout = s.dout ∧
    t.pending = s.pending ∧ t.resets = s.resets

/-- The invariant of the output state: TEXT is in canonical form and holds exactly the bytes below `LEN`, `LEN` is at
most 78 (R18), a capacity failure comes with the empty result (46_decimal_render.md R155), and every byte is a digit
code or, at index 0 only, the minus sign (R151, R154). -/
abbrev State.Inv (s : State) : Prop :=
  Memory.wf s.text ∧ s.text.map Prod.fst = List.range s.len.toNat ∧ s.len.toNat ≤ 78 ∧
    (s.capf = true → s.len = 0#7) ∧
    ∀ c ∈ s.text, (c.1 = 0 ∧ c.2 = minusByte) ∨ ∃ d, d < 10 ∧ c.2 = digitByte d

end Sys2Proof.Machine
end

