-- ==== Sys2Proof/Certificates/Slice0/Obligations.lean ====
section
/-! DEFINITION. The statements for the provers, rule by rule of the spec. In them `a.toNat` is `U(a)`, `a.toInt` is `S(a)`
and `a.msb` is `a[255]` (00_scope.md R6). -/

open Sys2Proof Sys2Proof.Machine

/-! ### Encoding and decoding -/

/-- R56: the sixteen worked encodings, read both ways. -/
def Obligations.WorkedEncodingsReadBothWays : Prop :=
  ∀ p ∈ [
    (Instr.zero 7, Command.mk 0x0E000000#32 0#64),
    (Instr.fromint 0 (BitVec.ofInt 64 (-5)), Command.mk 0x10000000#32 0xFFFFFFFFFFFFFFFB#64),
    (Instr.mov 6 1, Command.mk 0x2C400000#32 0#64),
    (Instr.add 1 4 5, Command.mk 0x33280000#32 0#64),
    (Instr.sub 4 3 0, Command.mk 0x48C00000#32 0#64),
    (Instr.neg 3 3, Command.mk 0x56C00000#32 0#64),
    (Instr.abs 1 6, Command.mk 0x63800000#32 0#64),
    (Instr.shl1 2 2 true, Command.mk 0x74808000#32 0#64),
    (Instr.shr1 1 2 true, Command.mk 0x82808000#32 0#64),
    (Instr.mul 2 0 1, Command.mk 0x94080000#32 0#64),
    (Instr.div 3 2 1, Command.mk 0xA6880000#32 0#64),
    (Instr.rem 1 2 3, Command.mk 0xB2980000#32 0#64),
    (Instr.divrem 7 6 5 4, Command.mk 0xCF660000#32 0#64),
    (Instr.iszero 7, Command.mk 0xD1C00000#32 0#64),
    (Instr.getw 5 3, Command.mk 0xE1403000#32 0#64),
    (Instr.todec 2 16#32, Command.mk 0xF0800000#32 0x10#64)],
    encode p.1 = p.2 ∧ decode p.2 = p.1

/-- R46 to R49: the decoder reads back every instruction the encoder writes, every operand at every value. -/
def Obligations.DecodeOfEncode : Prop := ∀ i : Instr, decode (encode i) = i

/-- R48: the canonical `CMD` column of the opcode map, as sums of shifted fields, and the four bits that select the
operation. -/
def Obligations.OpcodeMapColumns : Prop :=
  ∀ (rd ra rb rd2 : RegIdx) (cin : Bool) (widx : WordIdx) (imm : BitVec 64) (cap : BitVec 32),
    let f (r : Fin 8) (n : Nat) : BitVec 32 := BitVec.ofNat 32 r.val <<< n
    let c : BitVec 32 := BitVec.ofNat 32 cin.toNat <<< 15
    (encode (.zero rd)).cmd = 0x00000000#32 ||| f rd 25 ∧
    (encode (.fromint rd imm)).cmd = 0x10000000#32 ||| f rd 25 ∧
    (encode (.mov rd ra)).cmd = 0x20000000#32 ||| f rd 25 ||| f ra 22 ∧
    (encode (.add rd ra rb)).cmd = 0x30000000#32 ||| f rd 25 ||| f ra 22 ||| f rb 19 ∧
    (encode (.sub rd ra rb)).cmd = 0x40000000#32 ||| f rd 25 ||| f ra 22 ||| f rb 19 ∧
    (encode (.neg rd ra)).cmd = 0x50000000#32 ||| f rd 25 ||| f ra 22 ∧
    (encode (.abs rd ra)).cmd = 0x60000000#32 ||| f rd 25 ||| f ra 22 ∧
    (encode (.shl1 rd ra cin)).cmd = 0x70000000#32 ||| f rd 25 ||| f ra 22 ||| c ∧
    (encode (.shr1 rd ra cin)).cmd = 0x80000000#32 ||| f rd 25 ||| f ra 22 ||| c ∧
    (encode (.mul rd ra rb)).cmd = 0x90000000#32 ||| f rd 25 ||| f ra 22 ||| f rb 19 ∧
    (encode (.div rd ra rb)).cmd = 0xA0000000#32 ||| f rd 25 ||| f ra 22 ||| f rb 19 ∧
    (encode (.rem rd ra rb)).cmd = 0xB0000000#32 ||| f rd 25 ||| f ra 22 ||| f rb 19 ∧
    (encode (.divrem rd rd2 ra rb)).cmd = 0xC0000000#32 ||| f rd 25 ||| f ra 22 ||| f rb 19 ||| f rd2 16 ∧
    (encode (.iszero ra)).cmd = 0xD0000000#32 ||| f ra 22 ∧
    (encode (.getw ra widx)).cmd = 0xE0000000#32 ||| f ra 22 ||| f widx 12 ∧
    (encode (.todec ra cap)).cmd = 0xF0000000#32 ||| f ra 22 ∧
    (encode (.fromint rd imm)).opd = imm ∧
    (encode (.todec ra cap)).opd = BitVec.ofNat 64 cap.toNat ∧
    ∀ w : Command, w.cmd &&& 0xF0000000#32 = (opcodeBits (decode w).opcode).setWidth 32 <<< 28

/-- R50: the bits a format does not use, `CMD[11:0]` among them, are ignored; a word runs as its canonical form, and the
canonical words are the encoder's. -/
def Obligations.UnusedBitsAreIgnored : Prop :=
  (∀ c : Command, encode (decode c) = canonicalForm c ∧ (isCanonical c = true ↔ canonicalForm c = c)) ∧
  (∀ f : Format, f.cmdMask &&& 0xFFF#32 = 0#32) ∧
  (∀ c d : Command, opcodeField c.cmd = opcodeField d.cmd →
    c.cmd &&& (opcodeField c.cmd).format.cmdMask = d.cmd &&& (opcodeField c.cmd).format.cmdMask →
    c.opd &&& (opcodeField c.cmd).format.opdMask = d.opd &&& (opcodeField c.cmd).format.opdMask →
    decode c = decode d) ∧
  ∀ (c : Command) (s : State), step (presentCommand s c) = step (presentCommand s (canonicalForm c))

/-- R51: every command word is a command, runs to a next state, and every operation is some word's. -/
def Obligations.NoIllegalEncoding : Prop :=
  (∀ nbits w : Nat, ∃ i, decodeTableWord nbits w = some i) ∧
  (∀ op : Opcode, ∃ c, (decode c).opcode = op) ∧
  (∀ (c : Command) (s : State), ∃ t, step (presentCommand s c) = .next t) ∧
  decode ⟨0#32, 0#64⟩ = .zero 0

/-- R45: `OPD` is looked at by FROMINT, all of it, and by TODEC, its low half, and by no other command. -/
def Obligations.OperandWordUse : Prop :=
  ∀ (cmd : BitVec 32) (opd opd' : BitVec 64),
    ((decode ⟨cmd, opd⟩).opcode ≠ .fromint → (decode ⟨cmd, opd⟩).opcode ≠ .todec →
      decode ⟨cmd, opd⟩ = decode ⟨cmd, opd'⟩) ∧
    (∀ rd imm, decode ⟨cmd, opd⟩ = .fromint rd imm → imm = opd) ∧
    (∀ ra cap, decode ⟨cmd, opd⟩ = .todec ra cap → cap.toNat = opd.toNat % 2 ^ 32)

/-! ### Step, reset, invariant -/

/-- R208: the next command presented is executed whole; issuing an instruction's encoding runs that instruction. -/
def Obligations.StepRunsTheDecodedCommand : Prop :=
  ∀ (s : State) (es : List HostEvent),
    (∀ c, s.pending = .command c :: es → step s = exec (decode c) { s with pending := es }) ∧
    (∀ i, s.pending = .command (encode i) :: es → step s = exec i { s with pending := es })

/-- R213: with no command left, any number of steps holds the state. -/
def Obligations.BlockHoldsItsState : Prop :=
  ∀ (s : State) (k : Nat), s.pending = [] → Host.Core.run core k s = .next s

/-- R205: what a reset event leaves: flags 0, `STATUS` 0, every register unwritten, no valued TEXT byte, and the events
still to come. -/
def Obligations.ResetEventClears : Prop :=
  ∀ (s : State) (es : List HostEvent), s.pending = .reset :: es →
    ∃ t, step s = .next t ∧ t.z = false ∧ t.capf = false ∧ t.len = 0#7 ∧ statusView t = 0#32 ∧
      (∀ r : RegIdx, t.written[r.val] = false) ∧ (∀ a, cellAt t.text a = none) ∧ t.pending = es

/-- R26: the reset state; the contents of the registers and of `DOUT` are free values, of which nothing is said. -/
def Obligations.ResetStateValues : Prop :=
  State.reset.z = false ∧ State.reset.capf = false ∧ State.reset.len = 0#7 ∧ statusView State.reset = 0x00000000#32 ∧
    (∀ r : RegIdx, State.reset.written[r.val] = false) ∧ ∀ a, cellAt State.reset.text a = none

/-- The invariant holds after reset. -/
def Obligations.ResetMeetsOutputInvariant : Prop := State.reset.Inv

/-- R18, R19, R154, R155: every step from every state that meets the output invariant ends in one that meets it. -/
def Obligations.StepKeepsOutputInvariant : Prop :=
  ∀ s t : State, s.Inv → step s = .next t → t.Inv

/-- R185, R192: one outcome kind: every command and every step answers a next state. -/
def Obligations.EveryCommandCompletes : Prop :=
  (∀ (i : Instr) (s : State), ∃ t, exec i s = .next t) ∧ ∀ s : State, ∃ t, step s = .next t

/-! ### Construction and copy -/

/-- R65, R66, R68: what ZERO, FROMINT and MOV write, word by word, and that they write nothing else. -/
def Obligations.ConstructionResults : Prop :=
  ∀ (rd ra : RegIdx) (imm : BitVec 64) (s : State),
    (∃ t, exec (.zero rd) s = .next t ∧ WritesOnly rd (wrap256 0) s t ∧ ∀ j, wordOf (readReg t rd) j = 0x00000000#32) ∧
    (∃ t v, exec (.fromint rd imm) s = .next t ∧ WritesOnly rd v s t ∧ v.toInt = imm.toInt ∧
      wordOf v 0 = imm.extractLsb' 0 32 ∧ wordOf v 1 = imm.extractLsb' 32 32 ∧
      ∀ j : WordIdx, 2 ≤ j.val → wordOf v j = if imm.getLsbD 63 then 0xFFFFFFFF#32 else 0x00000000#32) ∧
    (∃ t, exec (.mov rd ra) s = .next t ∧ readReg t rd = readReg s ra ∧
      (∀ j, wordOf (readReg t rd) j = wordOf (readReg s ra) j) ∧ SameRegsExcept [rd] s t ∧ SameOutputs s t ∧
      (rd = ra → t = s) ∧ (rd ≠ ra → t.written[rd.val] = true))

/-- R67: the sign-extension law of FROMINT, and its image. -/
def Obligations.SignExtensionLaw : Prop :=
  (∀ (rd : RegIdx) (imm : BitVec 64) (s : State), ∃ t, exec (.fromint rd imm) s = .next t ∧
    (readReg t rd).toInt = imm.toInt ∧
    (readReg t rd).extractLsb' 64 192 = BitVec.fill 192 (imm.getLsbD 63) ∧
    (readReg t rd).extractLsb' 0 64 = imm) ∧
  ∀ v : Value, (∃ imm, immValue imm = v) ↔ -2 ^ 63 ≤ v.toInt ∧ v.toInt ≤ 2 ^ 63 - 1

/-! ### The adder family -/

/-- R81: the word-by-word carry chain adds modulo `2^256`, read unsigned and read signed. -/
def Obligations.CarryChainLaw : Prop :=
  ∀ (a b : Value) (c0 : Bool),
    addc a b c0 = wrap256 ((a.toNat : Int) + b.toNat + c0.toNat) ∧
    addc a b c0 = wrap256 (a.toInt + b.toInt + c0.toNat)

/-- R82, R83: the result laws of ADD and SUB, what the carry chain computes for them, and their frame. -/
def Obligations.AddSubResults : Prop :=
  ∀ (rd ra rb : RegIdx) (s : State),
    (∃ t, exec (.add rd ra rb) s = .next t ∧
      WritesOnly rd (wrap256 ((readReg s ra).toInt + (readReg s rb).toInt)) s t ∧
      readReg t rd = addc (readReg s ra) (readReg s rb) false) ∧
    (∃ t, exec (.sub rd ra rb) s = .next t ∧
      WritesOnly rd (wrap256 ((readReg s ra).toInt - (readReg s rb).toInt)) s t ∧
      readReg t rd = addc (readReg s ra) (~~~(readReg s rb)) true)

/-- R84, R85: the result laws of NEG and ABS, what the carry chain computes for them, and their frame. -/
def Obligations.NegAbsResults : Prop :=
  ∀ (rd ra : RegIdx) (s : State),
    (∃ t, exec (.neg rd ra) s = .next t ∧ WritesOnly rd (wrap256 (-(readReg s ra).toInt)) s t ∧
      readReg t rd = addc (wrap256 0) (~~~(readReg s ra)) true) ∧
    (∃ t, exec (.abs rd ra) s = .next t ∧
      WritesOnly rd (if (readReg s ra).msb then wrap256 (-(readReg s ra).toInt) else readReg s ra) s t ∧
      readReg t rd = addc (readReg s ra) (signMask (readReg s ra)) false ^^^ signMask (readReg s ra))

/-- R86: the sign mask, bit by bit, word by word, and as a number. -/
def Obligations.SignMaskLaw : Prop :=
  ∀ a : Value, (∀ k, k < 256 → (signMask a).getLsbD k = a.getLsbD 255) ∧
    (∀ j : WordIdx, wordOf (signMask a) j = if (wordOf a 7).getLsbD 31 then 0xFFFFFFFF#32 else 0x00000000#32) ∧
    signMask a = wrap256 (-(a.msb.toNat : Int))

/-- R87: the laws of the adder family. -/
def Obligations.AdderFamilyLaws : Prop :=
  ∀ a b c : Value,
    addValue a 0#256 = a ∧ addValue a (negValue a) = 0#256 ∧ subValue a b = addValue a (negValue b) ∧
    absValue (absValue a) = absValue a ∧ addValue a b = addValue b a ∧
    addValue (addValue a b) c = addValue a (addValue b c) ∧
    negValue (negValue a) = a ∧ ((negValue a).toInt = -a.toInt ↔ a ≠ minValue) ∧
    (0 ≤ (absValue a).toInt ↔ a ≠ minValue) ∧ (absValue a).toNat = a.toInt.natAbs

/-! ### The shifters -/

/-- R100: SHL1 as a number, bit by bit, and word by word. -/
def Obligations.ShiftLeftResult : Prop :=
  ∀ (rd ra : RegIdx) (cin : Bool) (s : State), ∃ t v, exec (.shl1 rd ra cin) s = .next t ∧ WritesOnly rd v s t ∧
    v = wrap256 (2 * ((readReg s ra).toNat : Int) + cin.toNat) ∧ v.getLsbD 0 = cin ∧
    (∀ k, 1 ≤ k → k ≤ 255 → v.getLsbD k = (readReg s ra).getLsbD (k - 1)) ∧ v = shl1Path (readReg s ra) cin

/-- R101: SHR1 bit by bit, word by word, and as the floor of the half when no bit comes in. -/
def Obligations.ShiftRightResult : Prop :=
  ∀ (rd ra : RegIdx) (cin : Bool) (s : State), ∃ t v, exec (.shr1 rd ra cin) s = .next t ∧ WritesOnly rd v s t ∧
    (∀ k, k ≤ 254 → v.getLsbD k = (readReg s ra).getLsbD (k + 1)) ∧
    v.getLsbD 255 = ((readReg s ra).getLsbD 255 || cin) ∧ v = shr1Path (readReg s ra) cin ∧
    (cin = false → v = wrap256 ((readReg s ra).toInt / 2))

/-- R102: the laws of the shifters. -/
def Obligations.ShifterLaws : Prop :=
  (∀ (a : Value) (c : Bool),
    (shr1Value (shl1Value a c) false).extractLsb' 0 255 = a.extractLsb' 0 255 ∧
    (shr1Value (shl1Value a c) false).getLsbD 255 = a.getLsbD 254 ∧
    shl1Value (shr1Value a false) (a.getLsbD 0) = a ∧
    shl1Value a false = addValue a a ∧ shr1Value a false = wrap256 (a.toInt / 2)) ∧
  ∀ (hi lo : Value) (c : Bool),
    ((shl1Value hi lo.msb).toNat * 2 ^ 256 + (shl1Value lo c).toNat) =
      (2 * (hi.toNat * 2 ^ 256 + lo.toNat) + c.toNat) % 2 ^ 512

/-! ### The multiplier -/

/-- R110: MUL writes the low 256 bits of the exact product, signed or unsigned alike, and nothing else. -/
def Obligations.MultiplyResult : Prop :=
  ∀ (rd ra rb : RegIdx) (s : State), ∃ t, exec (.mul rd ra rb) s = .next t ∧
    WritesOnly rd (wrap256 ((readReg s ra).toInt * (readReg s rb).toInt)) s t ∧
    readReg t rd = wrap256 ((readReg s ra).toNat * (readReg s rb).toNat)

/-- R112: the partial-product datapath computes the low 256 bits of the product of the magnitudes, and with the final
conditional negation the signed product. -/
def Obligations.MultiplierDatapathAgrees : Prop :=
  ∀ a b : Value, mulMagnitudes (absValue a) (absValue b) = wrap256 ((absValue a).toNat * (absValue b).toNat) ∧
    mulPath a b = wrap256 (a.toInt * b.toInt)

/-- R113: the multiplicative sign rule, with its exact bound. -/
def Obligations.MultiplySignRule : Prop :=
  ∀ a b : Value,
    (a.toInt.natAbs * b.toInt.natAbs < 2 ^ 255 → (mulValue a b).toInt = a.toInt * b.toInt ∧
      (a ≠ 0#256 → b ≠ 0#256 → (mulValue a b).msb = (a.msb ^^ b.msb))) ∧
    (a.toInt.natAbs * b.toInt.natAbs = 2 ^ 255 → a.msb ≠ b.msb →
      mulValue a b = minValue ∧ (mulValue a b).toInt = a.toInt * b.toInt) ∧
    ((mulValue a b).toNat : Int) = (a.toInt * b.toInt) % 2 ^ 256

/-! ### The divider -/

/-- R121: the restoring core divides whenever the divisor is from 1 to `2^255`. -/
def Obligations.RestoringCoreLaw : Prop :=
  ∀ n d : Value, 1 ≤ d.toNat → d.toNat ≤ 2 ^ 255 →
    (udivrem n d).1.toNat = n.toNat / d.toNat ∧ (udivrem n d).2.toNat = n.toNat % d.toNat

/-- R123: the sign wrapper truncates toward zero, the remainder has the dividend's sign, at every corner too. -/
def Obligations.SignWrapperLaw : Prop :=
  (∀ a b : Value, b ≠ 0#256 →
    sdivrem a b = (wrap256 (Int.tdiv a.toInt b.toInt), wrap256 (a.toInt - b.toInt * Int.tdiv a.toInt b.toInt)) ∧
    (sdivrem a b).2.toInt = a.toInt - b.toInt * Int.tdiv a.toInt b.toInt ∧
    (sdivrem a b).2.toInt.natAbs < b.toInt.natAbs ∧
    ((sdivrem a b).2 = 0#256 ∨ (sdivrem a b).2.msb = a.msb) ∧
    (¬ (a = minValue ∧ b = wrap256 (-1)) → (sdivrem a b).1.toInt = Int.tdiv a.toInt b.toInt)) ∧
  sdivrem minValue (wrap256 (-1)) = (minValue, wrap256 0) ∧
  sdivrem minValue minValue = (wrap256 1, wrap256 0) ∧
  sdivrem minValue (wrap256 1) = (minValue, wrap256 0) ∧
  sdivrem (wrap256 5) minValue = (wrap256 0, wrap256 5) ∧
  sdivrem (wrap256 (-5)) minValue = (wrap256 0, wrap256 (-5)) ∧
  sdivrem maxValue minValue = (wrap256 0, maxValue) ∧
  sdivrem minValue maxValue = (wrap256 (-1), wrap256 (-1)) ∧
  sdivrem (wrap256 (-3)) (wrap256 2) = (wrap256 (-1), wrap256 (-1)) ∧
  sdivrem (wrap256 (-1)) (wrap256 2) = (wrap256 0, wrap256 (-1))

/-- R124, R125: what DIV and REM write, by a non-zero divisor and by zero, and that they write nothing else. -/
def Obligations.DivideAndRemainderResults : Prop :=
  ∀ (rd ra rb : RegIdx) (s : State),
    (∃ t v, exec (.div rd ra rb) s = .next t ∧ WritesOnly rd v s t ∧
      (readReg s rb ≠ 0#256 → v = wrap256 (Int.tdiv (readReg s ra).toInt (readReg s rb).toInt) ∧
        v = (sdivrem (readReg s ra) (readReg s rb)).1) ∧
      (readReg s rb = 0#256 → v = (Config.div0 (readReg s ra)).1)) ∧
    (∃ t v, exec (.rem rd ra rb) s = .next t ∧ WritesOnly rd v s t ∧
      (readReg s rb ≠ 0#256 →
        v = wrap256 ((readReg s ra).toInt -
          (readReg s rb).toInt * Int.tdiv (readReg s ra).toInt (readReg s rb).toInt) ∧
        v = (sdivrem (readReg s ra) (readReg s rb)).2 ∧ (v = 0#256 ∨ v.msb = (readReg s ra).msb)) ∧
      (readReg s rb = 0#256 → v = (Config.div0 (readReg s ra)).2))

/-- R126: DIVREM writes both results of the old operands, the remainder second, and nothing else. -/
def Obligations.DivremResult : Prop :=
  ∀ (rd rd2 ra rb : RegIdx) (s : State), ∃ t q r, exec (.divrem rd rd2 ra rb) s = .next t ∧
    (readReg s rb ≠ 0#256 → (q, r) = sdivrem (readReg s ra) (readReg s rb)) ∧
    (readReg s rb = 0#256 → (q, r) = Config.div0 (readReg s ra)) ∧
    (∃ u, exec (.div rd ra rb) s = .next u ∧ readReg u rd = q) ∧
    (∃ u, exec (.rem rd2 ra rb) s = .next u ∧ readReg u rd2 = r) ∧
    readReg t rd2 = r ∧ (rd ≠ rd2 → readReg t rd = q) ∧
    t.written[rd.val] = true ∧ t.written[rd2.val] = true ∧ SameRegsExcept [rd, rd2] s t ∧ SameOutputs s t

/-- R127, R188: a division by zero completes, sets no flag, and writes `DIV0` of the dividend, an open parameter
(`Config.div0`), to its destinations only; the written values do not depend on anything but the dividend. -/
def Obligations.ZeroDivisorCompletes : Prop :=
  ∀ (rd rd2 ra rb : RegIdx) (s : State), readReg s rb = 0#256 →
    (∃ t, exec (.div rd ra rb) s = .next t ∧ WritesOnly rd (Config.div0 (readReg s ra)).1 s t) ∧
    (∃ t, exec (.rem rd ra rb) s = .next t ∧ WritesOnly rd (Config.div0 (readReg s ra)).2 s t) ∧
    (∃ t, exec (.divrem rd rd2 ra rb) s = .next t ∧ readReg t rd2 = (Config.div0 (readReg s ra)).2 ∧
      (rd ≠ rd2 → readReg t rd = (Config.div0 (readReg s ra)).1) ∧
      t.written[rd.val] = true ∧ t.written[rd2.val] = true ∧ SameRegsExcept [rd, rd2] s t ∧ SameOutputs s t)

/-- R127, first row of its table: run with a zero divisor, the step rules give `DIV0_ALGO`. -/
def Obligations.ZeroDivisorDatapath : Prop := ∀ a : Value, sdivrem a 0#256 = div0Algo a

/-- R128: the laws of the division family, for every non-zero divisor. -/
def Obligations.DivisionFamilyLaws : Prop :=
  (∀ a b : Value, b ≠ 0#256 →
    addValue (mulValue (divValue a b) b) (remValue a b) = a ∧
    (remValue a b).toInt.natAbs < b.toInt.natAbs ∧ (remValue a b = 0#256 ∨ (remValue a b).msb = a.msb) ∧
    (¬ (a = minValue ∧ b = wrap256 (-1)) →
      (divValue a b = 0#256 ∨ (divValue a b).msb = (a.msb ^^ b.msb)) ∧
      (divValue a b).toInt = Int.tdiv a.toInt b.toInt)) ∧
  divValue minValue (wrap256 (-1)) = minValue ∧
  (∀ a : Value, divValue a (wrap256 1) = a ∧ divValue a (wrap256 (-1)) = negValue a) ∧
  divValue (mulValue (wrap256 (-5)) (wrap256 7)) (wrap256 7) = wrap256 (-5)

/-! ### Observation -/

/-- R140: ISZERO writes whether every word is zero to `Z`, and nothing else. -/
def Obligations.IsZeroResult : Prop :=
  ∀ (ra : RegIdx) (s : State), ∃ t, exec (.iszero ra) s = .next t ∧
    (t.z = true ↔ ∀ j, wordOf (readReg s ra) j = 0x00000000#32) ∧ (t.z = true ↔ readReg s ra = wrap256 0) ∧
    SameRegsExcept [] s t ∧ SameOutputs s { t with z := s.z }

/-- R141: GETW writes the selected word to `DOUT`, and nothing else. -/
def Obligations.GetWordResult : Prop :=
  ∀ (ra : RegIdx) (j : WordIdx) (s : State), ∃ t, exec (.getw ra j) s = .next t ∧
    t.dout.toNat = (readReg s ra).toNat / 2 ^ (32 * j.val) % 2 ^ 32 ∧
    (j = 7 → t.dout.getLsbD 31 = (readReg s ra).msb) ∧
    SameRegsExcept [] s t ∧ SameOutputs s { t with dout := s.dout }

/-- R22: `STATUS` bit by bit. -/
def Obligations.StatusViewBits : Prop :=
  ∀ s : State, (statusView s).getLsbD 0 = s.z ∧ (statusView s).getLsbD 1 = s.capf ∧
    (∀ k, 2 ≤ k → k ≤ 7 → (statusView s).getLsbD k = false) ∧
    (∀ k, 8 ≤ k → k ≤ 14 → (statusView s).getLsbD k = s.len.getLsbD (k - 8)) ∧
    (∀ k, 15 ≤ k → (statusView s).getLsbD k = false)

/-! ### The decimal renderer -/

/-- R150, R152: TODEC completes in both outcomes. With `nd` digits in the magnitude, `G` groups and a text of `L` bytes it
fails iff `CAP < 9 G + 1` or `CAP < L + 1`; then `CAPF = 1` and `LEN = 0`; else the text stands in TEXT from index 0 on,
with its length in `LEN`. Nothing but `CAPF`, `LEN` and TEXT changes. -/
def Obligations.RenderResult : Prop :=
  ∀ (ra : RegIdx) (cap : BitVec 32) (s : State),
    let a := readReg s ra
    let nd := (decDigits (magnitude a)).length
    let G := (nd + 8) / 9
    let L := nd + a.msb.toNat
    ∃ t, exec (.todec ra cap) s = .next t ∧ SameButText s t ∧
      (if cap.toNat < 9 * G + 1 ∨ cap.toNat < L + 1 then t.capf = true ∧ t.len = 0#7
       else t.capf = false ∧ t.len.toNat = L ∧ memRead t.text 0 L = some (decimalText a))

/-- R151, R154: the delivered text is a `-` for a negative value, then the decimal numeral of the magnitude in ASCII:
digits below ten, no leading zero but in the numeral 0, at least one digit and at most 77, worth the magnitude. -/
def Obligations.TextIsTheNumeral : Prop :=
  ∀ a : Value, magnitude a = a.toInt.natAbs ∧
    decimalText a = (if a.msb then [0x2D#8] else []) ++
      (decDigits (magnitude a)).map (fun d => BitVec.ofNat 8 (0x30 + d)) ∧
    (∀ d ∈ decDigits (magnitude a), d < 10) ∧
    ((decDigits (magnitude a)).head? = some 0 → decDigits (magnitude a) = [0]) ∧
    1 ≤ (decDigits (magnitude a)).length ∧ (decDigits (magnitude a)).length ≤ 77 ∧
    (decDigits (magnitude a)).foldl (fun n d => 10 * n + d) 0 = magnitude a

/-- R157: the smallest capacity that fits, by shape of the value, with `nd`, `G` and `L`. -/
def Obligations.CapacityBoundaries : Prop :=
  ∀ a : Value,
    let nd := (decDigits (magnitude a)).length
    let G := groupCount a
    let L := (decimalText a).length
    let smallest (n : Nat) : Prop := ∀ cap, textFits a cap = true ↔ n ≤ cap
    (a.toInt = 0 → nd = 1 ∧ G = 1 ∧ L = 1 ∧ smallest 10) ∧
    (1 ≤ a.toInt → a.toInt ≤ 999999999 → 1 ≤ nd ∧ nd ≤ 9 ∧ G = 1 ∧ L = nd ∧ smallest 10) ∧
    (-99999999 ≤ a.toInt → a.toInt ≤ -1 → 1 ≤ nd ∧ nd ≤ 8 ∧ G = 1 ∧ L = nd + 1 ∧ smallest 10) ∧
    (-999999999 ≤ a.toInt → a.toInt ≤ -100000000 → nd = 9 ∧ G = 1 ∧ L = 10 ∧ smallest 11) ∧
    (10 ^ 9 ≤ a.toInt → a.toInt ≤ 10 ^ 18 - 1 → 10 ≤ nd ∧ nd ≤ 18 ∧ G = 2 ∧ L = nd ∧ smallest 19) ∧
    (-(10 ^ 18 - 1) ≤ a.toInt → a.toInt ≤ -10 ^ 17 → nd = 18 ∧ G = 2 ∧ L = 19 ∧ smallest 20) ∧
    (∀ g : Nat, 1 ≤ g → 10 ^ (9 * (g - 1)) ≤ a.toInt → a.toInt ≤ 10 ^ (9 * g) - 1 →
      9 * g - 8 ≤ nd ∧ nd ≤ 9 * g ∧ G = g ∧ L = nd ∧ smallest (9 * g + 1)) ∧
    (a.msb = true → nd = 9 * G → L = 9 * G + 1 ∧ smallest (9 * G + 2)) ∧
    (a.msb = true → nd < 9 * G → L = nd + 1 ∧ smallest (9 * G + 1)) ∧
    (a = maxValue → nd = 77 ∧ G = 9 ∧ L = 77 ∧ smallest 82) ∧
    (a = minValue → nd = 77 ∧ G = 9 ∧ L = 78 ∧ smallest 82)

/-- R156: TODEC of the minimum value, nine groups of digits, delivers `-` and the 77 digits of `2^255` when the capacity
is at least 82, and fails below. -/
def Obligations.MinimumValueRendering : Prop :=
  groupCount minValue = 9 ∧ ∀ (ra : RegIdx) (cap : BitVec 32) (s : State), readReg s ra = minValue →
    ∃ t, exec (.todec ra cap) s = .next t ∧
      (82 ≤ cap.toNat → t.capf = false ∧ t.len = 78#7 ∧ memRead t.text 0 78 = some
        ("-57896044618658097711785492504343953926634992332820282019728792003956564819968".toList.map
          fun c => BitVec.ofNat 8 c.toNat)) ∧
      (cap.toNat < 82 → t.capf = true ∧ t.len = 0#7)

/-- R158, R153: the chunk-peeling datapath delivers the text exactly when it fits. -/
def Obligations.RendererDatapathAgrees : Prop :=
  ∀ (a : Value) (cap : Nat), renderPath a cap = render a cap

/-- R158: the text read as a signed decimal integer is the value; and 28 bytes take every 64-bit integer. -/
def Obligations.TextRoundTrip : Prop :=
  (∀ a : Value,
    let digits := if a.msb then (decimalText a).tail else decimalText a
    let n : Nat := digits.foldl (fun n b => 10 * n + (b.toNat - 0x30)) 0
    (a.msb = true → (decimalText a).head? = some 0x2D#8) ∧ a.toInt = if a.msb then -(n : Int) else n) ∧
  ∀ (imm : BitVec 64) (cap : Nat), 28 ≤ cap → render (immValue imm) cap = some (decimalText (immValue imm))

/-- R155, R187: after every TODEC the failure marker and the empty result come together, and what an earlier TODEC left
plays no part. -/
def Obligations.CapacityFailureMarker : Prop :=
  (∀ (ra : RegIdx) (cap : BitVec 32) (s t : State), exec (.todec ra cap) s = .next t →
    (t.capf = true ↔ t.len = 0#7)) ∧
  ∀ (ra : RegIdx) (cap : BitVec 32) (s s' t t' : State), readReg s ra = readReg s' ra →
    exec (.todec ra cap) s = .next t → exec (.todec ra cap) s' = .next t' →
      t.capf = t'.capf ∧ t.len = t'.len ∧ t.text = t'.text

/-- R19, the model's reading of it (log entry 3): after every TODEC, no byte of TEXT at `LEN` or above holds a value. -/
def Obligations.TextAboveLenHasNoValue : Prop :=
  ∀ (ra : RegIdx) (cap : BitVec 32) (s t : State), exec (.todec ra cap) s = .next t →
    ∀ a, (cellAt t.text a).isSome = true ↔ a < t.len.toNat

/-- R37, R200: in a state that meets the output invariant the host can read `TEXT[0 .. LEN-1]`, `LEN` bytes of it. -/
def Obligations.ValidTextIsReadable : Prop :=
  ∀ s : State, s.Inv → ∃ bs, (hostView s).text = some bs ∧ bs.length = s.len.toNat

/-! ### Whole-machine rules -/

/-- R9: the two levels agree: away from zero divisors, a command does what its reference datapath does. -/
def Obligations.CommandsFollowTheirDatapaths : Prop :=
  ∀ (i : Instr) (s : State), DivisorNonzero i s → exec i s = .next (execPath i s)

/-- R13: a command's results depend on the registers it reads alone, and it writes nothing its table row does not list. -/
def Obligations.ReadWriteTable : Prop :=
  ∀ (i : Instr) (s s' t t' : State), (∀ r ∈ i.sources, readReg s r = readReg s' r) →
    exec i s = .next t → exec i s' = .next t' →
    (∀ r ∈ i.dests, readReg t r = readReg t' r ∧ (ReadsWritten i s → t.written[r.val] = true)) ∧
    SameRegsExcept i.dests s t ∧
    (if i.opcode = .iszero then t.z = t'.z else t.z = s.z) ∧
    (if i.opcode = .getw then t.dout = t'.dout else t.dout = s.dout) ∧
    (if i.opcode = .todec then t.capf = t'.capf ∧ t.len = t'.len ∧ ∀ a, cellAt t.text a = cellAt t'.text a
     else t.capf = s.capf ∧ t.len = s.len ∧ ∀ a, cellAt t.text a = cellAt s.text a) ∧
    t.pending = s.pending ∧ t.resets = s.resets

/-- R14, R25, R207: a command whose sources are written cannot tell two states apart that differ only in registers
nothing has written, nor make them differ in more. -/
def Obligations.UnwrittenRegistersDoNotMatter : Prop :=
  ∀ (i : Instr) (s s' : State), AgreeOnWritten s s' → ReadsWritten i s →
    ∃ t t', exec i s = .next t ∧ exec i s' = .next t' ∧ AgreeOnWritten t t'

/-- R14, R52: a register stays written until reset, and becomes written as a destination, but not by a copy to itself. -/
def Obligations.WrittenUntilReset : Prop :=
  ∀ (s t : State) (r : RegIdx), step s = .next t → s.pending.head? ≠ some .reset →
    (t.written[r.val] = true ↔
      s.written[r.val] = true ∨ ∃ c, s.pending.head? = some (.command c) ∧ r ∈ (decode c).dests ∧ decode c ≠ .mov r r)

/-- R36: repeating a command none of whose destinations is a source changes nothing more. -/
def Obligations.RepeatingIsIdempotent : Prop :=
  ∀ (i : Instr) (s t : State), (∀ r ∈ i.dests, r ∉ i.sources) → exec i s = .next t → exec i t = .next t

/-- R209: operands are read before results are written, whatever names coincide. -/
def Obligations.AliasedOperands : Prop :=
  (∀ (r : RegIdx) (s : State),
    (∃ t, exec (.add r r r) s = .next t ∧ readReg t r = wrap256 (2 * (readReg s r).toInt)) ∧
    (∃ t, exec (.neg r r) s = .next t ∧ readReg t r = wrap256 (-(readReg s r).toInt)) ∧
    (∃ t, exec (.mul r r r) s = .next t ∧ readReg t r = wrap256 ((readReg s r).toInt ^ 2))) ∧
  (∀ (d r : RegIdx) (s : State),
    (∃ t, exec (.sub d r r) s = .next t ∧ readReg t d = wrap256 0) ∧
    (readReg s r ≠ 0#256 → ∃ t, exec (.div d r r) s = .next t ∧ readReg t d = wrap256 1)) ∧
  ∀ (p q : RegIdx) (s : State), p ≠ q → readReg s q ≠ 0#256 → ∃ t, exec (.divrem p q p q) s = .next t ∧
    readReg t p = wrap256 (Int.tdiv (readReg s p).toInt (readReg s q).toInt) ∧
    readReg t q = wrap256 ((readReg s p).toInt -
      (readReg s q).toInt * Int.tdiv (readReg s p).toInt (readReg s q).toInt)
end

