-- ==== Sys2Proof/Laws/Arith.lean ====
section
/-! SUPPORT. The result laws as bit-vector arithmetic, which is arithmetic modulo `2^256`: the form in which later proofs
calculate with them. -/

namespace Sys2Proof.Machine

/-- `wrap_256` forgets everything but the residue modulo `2^256` (00_scope.md R6). -/
theorem wrap256_toInt_emod (n : Int) : ((wrap256 n).toNat : Int) = n % 2 ^ 256 := by
  have : (0 : Int) ≤ n % 2 ^ 256 := Int.emod_nonneg n (by norm_num)
  rw [wrap256, BitVec.toNat_ofInt]
  exact Int.toNat_of_nonneg this

theorem wrap256_eq_iff (m n : Int) : wrap256 m = wrap256 n ↔ m % 2 ^ 256 = n % 2 ^ 256 := by
  rw [← BitVec.toNat_inj, ← Int.natCast_inj, wrap256_toInt_emod, wrap256_toInt_emod]

@[simp] theorem wrap256_toInt (a : Value) : wrap256 a.toInt = a := BitVec.ofInt_toInt

@[simp] theorem wrap256_toNat (a : Value) : wrap256 (a.toNat : Int) = a := by
  simp [wrap256]

theorem wrap256_add (m n : Int) : wrap256 (m + n) = wrap256 m + wrap256 n := BitVec.ofInt_add ..

theorem wrap256_mul (m n : Int) : wrap256 (m * n) = wrap256 m * wrap256 n := BitVec.ofInt_mul ..

theorem wrap256_neg (m : Int) : wrap256 (-m) = -wrap256 m := BitVec.ofInt_neg ..

theorem wrap256_sub (m n : Int) : wrap256 (m - n) = wrap256 m - wrap256 n := by
  rw [Int.sub_eq_add_neg, wrap256_add, wrap256_neg, BitVec.sub_eq_add_neg]

theorem addValue_eq_add (a b : Value) : addValue a b = a + b := by
  simp [addValue, wrap256_add]

theorem subValue_eq_sub (a b : Value) : subValue a b = a - b := by
  simp [subValue, wrap256_sub]

theorem negValue_eq_neg (a : Value) : negValue a = -a := by
  simp [negValue, wrap256_neg]

theorem mulValue_eq_mul (a b : Value) : mulValue a b = a * b := by
  simp [mulValue, wrap256_mul]

/-- Shifting left by one is doubling, plus the incoming bit. -/
theorem shl1Value_eq (a : Value) (cin : Bool) : shl1Value a cin = a + a + BitVec.ofNat 256 cin.toNat := by
  rw [shl1Value, wrap256_add, two_mul, wrap256_add, wrap256_toNat]
  simp [wrap256]

/-- The magnitude is the absolute value of the signed reading, MIN included (41_add_sub_neg_abs.md R87). -/
theorem magnitude_le (a : Value) : magnitude a ≤ 2 ^ 255 := by
  unfold magnitude absValue
  rw [negValue_eq_neg]
  cases h : a.msb
  · have := BitVec.toNat_lt_of_msb_false h
    simp only [Bool.false_eq_true, if_false]
    omega
  · have h1 := BitVec.le_toNat_of_msb_true h
    have h2 := a.isLt
    simp only [if_true, BitVec.toNat_neg]
    omega

/-- A zero divisor gives `DIV0` of the dividend, quotient and remainder (44_divide.md R127). -/
theorem divValue_zero (a : Value) : divValue a 0#256 = (Config.div0 a).1 := if_pos rfl
theorem remValue_zero (a : Value) : remValue a 0#256 = (Config.div0 a).2 := if_pos rfl

theorem divValue_of_ne {a b : Value} (h : b ≠ 0#256) : divValue a b = wrap256 (truncQuot a b) := if_neg h
theorem remValue_of_ne {a b : Value} (h : b ≠ 0#256) :
    remValue a b = wrap256 (a.toInt - b.toInt * truncQuot a b) := if_neg h

end Sys2Proof.Machine
end

