-- ==== Sys2Proof/Laws/Codec.lean ====
section
/-! SUPPORT. What each field of a packed command word holds (30_encoding.md R46). -/

namespace Sys2Proof

/-- The three bits at `lo` of a packed word are a register number when they are so bit by bit. -/
theorem regField_eq {w : BitVec 32} {lo : Nat} {r : Fin 8}
    (h : ∀ i, i < 3 → w.getLsbD (lo + i) = (BitVec.ofFin (w := 3) r).getLsbD i) : regField w lo = r := by
  have : w.extractLsb' lo 3 = BitVec.ofFin (w := 3) r := by
    ext i hi
    rw [BitVec.getElem_extractLsb', h i hi, BitVec.getLsbD_eq_getElem]
  rw [regField, this]

section
variable (op : Opcode) (rd ra rb rd2 : Fin 8) (cin : Bool) (widx : Fin 8)

theorem opcodeField_packCmd : opcodeField (packCmd op rd ra rb rd2 cin widx) = op := by
  simp only [packCmd, opcodeField, BitVec.getLsbD_append]
  cases op <;> rfl

theorem cin_packCmd : (packCmd op rd ra rb rd2 cin widx).getLsbD 15 = cin := by
  simp only [packCmd, BitVec.getLsbD_append]
  cases cin <;> rfl

theorem rd_packCmd : regField (packCmd op rd ra rb rd2 cin widx) 25 = rd := by
  refine regField_eq fun i hi => ?_
  simp only [packCmd, BitVec.getLsbD_append]
  have : i = 0 ∨ i = 1 ∨ i = 2 := by omega
  rcases this with rfl | rfl | rfl <;> rfl

theorem ra_packCmd : regField (packCmd op rd ra rb rd2 cin widx) 22 = ra := by
  refine regField_eq fun i hi => ?_
  simp only [packCmd, BitVec.getLsbD_append]
  have : i = 0 ∨ i = 1 ∨ i = 2 := by omega
  rcases this with rfl | rfl | rfl <;> rfl

theorem rb_packCmd : regField (packCmd op rd ra rb rd2 cin widx) 19 = rb := by
  refine regField_eq fun i hi => ?_
  simp only [packCmd, BitVec.getLsbD_append]
  have : i = 0 ∨ i = 1 ∨ i = 2 := by omega
  rcases this with rfl | rfl | rfl <;> rfl

theorem rd2_packCmd : regField (packCmd op rd ra rb rd2 cin widx) 16 = rd2 := by
  refine regField_eq fun i hi => ?_
  simp only [packCmd, BitVec.getLsbD_append]
  have : i = 0 ∨ i = 1 ∨ i = 2 := by omega
  rcases this with rfl | rfl | rfl <;> rfl

theorem widx_packCmd : regField (packCmd op rd ra rb rd2 cin widx) 12 = widx := by
  refine regField_eq fun i hi => ?_
  simp only [packCmd, BitVec.getLsbD_append]
  have : i = 0 ∨ i = 1 ∨ i = 2 := by omega
  rcases this with rfl | rfl | rfl <;> rfl

end

end Sys2Proof
end

