-- ==== Sys2Proof/Laws/Datapath.lean ====
section
/-! SUPPORT. The building blocks of the datapaths: the word view is faithful, and what one step of the restoring divider
does to the quotient and the remainder (44_divide.md R120). -/

namespace Sys2Proof.Machine

/-- The unsigned value of a list of words. -/
theorem ofWords_toNat (ws : List Word) :
    (ofWords ws).toNat = (ws.foldr (fun w n => w.toNat + 2 ^ 32 * n) 0) % 2 ^ 256 := by
  induction ws with
  | nil => simp [ofWords]
  | cons w ws ih =>
    have hw := w.isLt
    have hdis : (w.setWidth 256 ||| (ofWords ws <<< 32)) = w.setWidth 256 + (ofWords ws <<< 32) := by
      refine (BitVec.add_eq_or_of_and_eq_zero _ _ ?_).symm
      ext i hi
      simp only [BitVec.getElem_and, BitVec.getElem_setWidth, BitVec.getElem_shiftLeft, BitVec.getElem_zero]
      by_cases h : i < 32
      · simp [h]
      · simp [BitVec.getLsbD_of_ge w i (by omega)]
    rw [ofWords, hdis, List.foldr_cons, BitVec.toNat_add, BitVec.toNat_shiftLeft, ih, BitVec.toNat_setWidth,
      Nat.shiftLeft_eq]
    generalize List.foldr (fun (w : Word) n => w.toNat + 2 ^ 32 * n) 0 ws = n
    omega

/-- A value is its eight words put together (10_state.md R11). -/
theorem ofWords_toWords (v : Value) : ofWords (toWords v) = v := by
  apply BitVec.eq_of_toNat_eq
  have hv := v.isLt
  rw [ofWords_toNat]
  simp only [toWords, List.finRange, wordOf, List.ofFn, Fin.foldr, Fin.foldr.loop, List.map_cons, List.map_nil,
    List.foldr_cons, List.foldr_nil, BitVec.extractLsb'_toNat, Nat.shiftRight_eq_div_pow]
  omega

theorem shl1Value_toNat (a : Value) (c : Bool) : (shl1Value a c).toNat = (2 * a.toNat + c.toNat) % 2 ^ 256 := by
  have hc : c.toNat ≤ 1 := Bool.toNat_le c
  have h := wrap256_toInt_emod (2 * (a.toNat : Int) + c.toNat)
  rw [shl1Value]
  omega

/-- One step of the restoring divider, on numbers: with the remainder below the divisor, the pair shifts left, and the
divisor is taken off exactly when it fits (R120). -/
theorem udivStep_spec {q r d : Value} (hd : d.toNat ≤ 2 ^ 255) (hr : r.toNat < d.toNat) :
    (udivStep d (q, r)).1.toNat =
      (2 * q.toNat) % 2 ^ 256 + (if d.toNat ≤ 2 * r.toNat + q.msb.toNat then 1 else 0) ∧
    (udivStep d (q, r)).2.toNat =
      (if d.toNat ≤ 2 * r.toNat + q.msb.toNat then 2 * r.toNat + q.msb.toNat - d.toNat
       else 2 * r.toNat + q.msb.toNat) := by
  have hm : q.msb.toNat ≤ 1 := Bool.toNat_le _
  have hR : (shl1Value r q.msb).toNat = 2 * r.toNat + q.msb.toNat := by
    rw [shl1Value_toNat]; omega
  have hQ : (shl1Value q false).toNat = 2 * q.toNat % 2 ^ 256 := by
    rw [shl1Value_toNat, Bool.toNat_false, Nat.add_zero]
  have hT : (subValue (shl1Value r q.msb) d).msb = decide (¬ d.toNat ≤ 2 * r.toNat + q.msb.toNat) := by
    rw [BitVec.msb_eq_decide, subValue_eq_sub, BitVec.toNat_sub, hR]
    congr 1
    apply propext
    omega
  have hor : (shl1Value q false ||| 1#256).toNat = 2 * q.toNat % 2 ^ 256 + 1 := by
    have : shl1Value q false &&& 1#256 = 0#256 := by
      ext i hi
      rw [BitVec.getElem_and, BitVec.getElem_zero]
      cases i with
      | zero =>
        have : (shl1Value q false).getLsbD 0 = false := by
          rw [BitVec.getLsbD, hQ, Nat.testBit_zero]
          simp only [decide_eq_false_iff_not]
          omega
        simp [← BitVec.getLsbD_eq_getElem, this]
      | succ i => simp [← BitVec.getLsbD_eq_getElem]
    rw [← BitVec.add_eq_or_of_and_eq_zero _ _ this, BitVec.toNat_add, hQ]
    simp only [BitVec.toNat_ofNat]
    omega
  unfold udivStep
  simp only [hT]
  by_cases h : d.toNat ≤ 2 * r.toNat + q.msb.toNat
  · simp only [h, not_true_eq_false, decide_false, Bool.false_eq_true, if_false, if_true, hor, true_and]
    rw [subValue_eq_sub, BitVec.toNat_sub, hR]
    omega
  · simp only [h, not_false_eq_true, decide_true, if_true, if_false, hQ, Nat.add_zero, true_and]
    rw [addValue_eq_add, subValue_eq_sub, BitVec.sub_add_cancel, hR]

/-- With a zero divisor a step keeps the shifted remainder while its top bit is clear (44_divide.md R127). -/
theorem udivStep_zero (q r : Value) :
    udivStep 0#256 (q, r) =
      (if (shl1Value r q.msb).msb then shl1Value q false else shl1Value q false ||| 1#256, shl1Value r q.msb) := by
  unfold udivStep
  simp only [subValue_eq_sub, addValue_eq_add, BitVec.sub_zero, BitVec.add_zero]
  split <;> rfl

end Sys2Proof.Machine
end

