-- ==== Sys2Proof/Laws/Decimal.lean ====
section
/-! SUPPORT. The decimal digits of a magnitude: each below ten, as many as the magnitude needs, and worth the magnitude
(46_decimal_render.md R151). -/

namespace Sys2Proof.Machine

/-- The number a list of digits spells, most significant digit first. -/
def digitsToNat (ds : List Nat) : Nat := ds.foldl (fun n d => 10 * n + d) 0

theorem digitsToNat_cons (d : Nat) (ds : List Nat) :
    digitsToNat (d :: ds) = d * 10 ^ ds.length + digitsToNat ds := by
  have key : ∀ (ds : List Nat) (n : Nat),
      ds.foldl (fun n d => 10 * n + d) n = n * 10 ^ ds.length + ds.foldl (fun n d => 10 * n + d) 0 := by
    intro ds
    induction ds with
    | nil => simp
    | cons e es ih => intro n; simp only [List.foldl_cons, List.length_cons]; rw [ih, ih (10 * 0 + e)]; ring
  simpa [digitsToNat] using key ds d

/-- Enough fuel spells the number in front of what was already there. -/
theorem digitsLoop_value (fuel : Nat) : ∀ (n : Nat) (acc : List Nat), n < fuel →
    digitsToNat (digitsLoop fuel n acc) = n * 10 ^ acc.length + digitsToNat acc := by
  induction fuel with
  | zero => intro n acc h; omega
  | succ f ih =>
    intro n acc h
    rw [digitsLoop]
    split
    · exact digitsToNat_cons n acc
    · rw [ih _ _ (by omega), digitsToNat_cons, List.length_cons, pow_succ]
      have := Nat.div_add_mod n 10
      generalize n / 10 = q at *
      generalize n % 10 = r at *
      subst this; ring

theorem digitsLoop_lt_ten (fuel : Nat) : ∀ (n : Nat) (acc : List Nat), (∀ d ∈ acc, d < 10) →
    ∀ d ∈ digitsLoop fuel n acc, d < 10 := by
  induction fuel with
  | zero => intro n acc h; exact h
  | succ f ih =>
    intro n acc h
    rw [digitsLoop]
    split
    · next hn => exact fun d hd => (List.mem_cons.1 hd).elim (fun e => e ▸ hn) (h d)
    · exact ih _ _ fun d hd => (List.mem_cons.1 hd).elim (fun e => by omega) (h d)

/-- A number below `10^(k+1)` adds at most `k+1` digits. -/
theorem digitsLoop_length_le (fuel : Nat) : ∀ (k n : Nat) (acc : List Nat), n < 10 ^ (k + 1) →
    (digitsLoop fuel n acc).length ≤ k + 1 + acc.length := by
  induction fuel with
  | zero => intro k n acc _; simp [digitsLoop]
  | succ f ih =>
    intro k n acc h
    rw [digitsLoop]
    split
    · simp
    · next hn =>
      cases k with
      | zero => simp at h; omega
      | succ k =>
        have := ih k (n / 10) (n % 10 :: acc) (by rw [pow_succ] at h; omega)
        simp only [List.length_cons] at this
        omega

/-- With enough fuel, at least one digit comes out, and the first one is a zero only for the number zero. -/
theorem digitsLoop_head (fuel : Nat) : ∀ (n : Nat) (acc : List Nat), n < fuel →
    ∃ d ds, digitsLoop fuel n acc = d :: ds ∧ (d = 0 → n = 0) := by
  induction fuel with
  | zero => intro n acc h; omega
  | succ f ih =>
    intro n acc h
    rw [digitsLoop]
    split
    · exact ⟨n, acc, rfl, id⟩
    · next hn =>
      obtain ⟨d, ds, he, hz⟩ := ih (n / 10) (n % 10 :: acc) (by omega)
      exact ⟨d, ds, he, fun e => absurd (hz e) (by omega)⟩

/-- The numeral of `m` is worth `m`. -/
theorem digitsToNat_decDigits (m : Nat) : digitsToNat (decDigits m) = m := by
  rw [decDigits, digitsLoop_value _ _ _ (Nat.lt_succ_self m)]
  simp [digitsToNat]

theorem decDigits_lt_ten (m : Nat) : ∀ d ∈ decDigits m, d < 10 :=
  digitsLoop_lt_ten _ _ _ (by simp)

theorem decDigits_length_pos (m : Nat) : 0 < (decDigits m).length := by
  obtain ⟨d, ds, h, _⟩ := digitsLoop_head (m + 1) m [] (Nat.lt_succ_self m)
  simp [decDigits, h]

theorem decDigits_length_le {m k : Nat} (h : m < 10 ^ (k + 1)) : (decDigits m).length ≤ k + 1 :=
  digitsLoop_length_le (m + 1) k m [] h

/-- The text of a value has a sign byte exactly for a negative value. -/
theorem decimalText_length (a : Value) :
    (decimalText a).length = a.msb.toNat + (decDigits (magnitude a)).length := by
  cases h : a.msb <;> simp [decimalText, h, Nat.add_comm]

/-- The longest rendering is 78 bytes (20_memory.md R37). -/
theorem decimalText_length_le (a : Value) : (decimalText a).length ≤ 78 := by
  have hm : magnitude a < 10 ^ (76 + 1) := lt_of_le_of_lt (magnitude_le a) (by norm_num)
  have := decDigits_length_le hm
  have hb : a.msb.toNat ≤ 1 := Bool.toNat_le _
  rw [decimalText_length]
  omega

theorem decimalText_length_pos (a : Value) : 0 < (decimalText a).length := by
  have := decDigits_length_pos (magnitude a)
  rw [decimalText_length]
  omega

/-- What `render` can answer: the whole text, or nothing (R150). -/
theorem render_cases (a : Value) (cap : Nat) :
    (textFits a cap = true ∧ render a cap = some (decimalText a)) ∨ (textFits a cap = false ∧ render a cap = none) := by
  unfold render
  cases h : textFits a cap <;> simp

end Sys2Proof.Machine
end

