-- ==== Sys2Proof/Laws/State.lean ====
section
/-! SUPPORT. Each field of the state after each update: one lemma per field per update, true by definition. -/

namespace Sys2Proof.Machine

@[simp] theorem writeReg_x (s : State) (r : Fin 8) (v : Value) :
    (writeReg s r v).x = s.x.set r.val v := rfl
@[simp] theorem writeReg_written (s : State) (r : Fin 8) (v : Value) :
    (writeReg s r v).written = s.written.set r.val true := rfl
@[simp] theorem writeReg_z (s : State) (r : Fin 8) (v : Value) :
    (writeReg s r v).z = s.z := rfl
@[simp] theorem writeReg_capf (s : State) (r : Fin 8) (v : Value) :
    (writeReg s r v).capf = s.capf := rfl
@[simp] theorem writeReg_len (s : State) (r : Fin 8) (v : Value) :
    (writeReg s r v).len = s.len := rfl
@[simp] theorem writeReg_text (s : State) (r : Fin 8) (v : Value) :
    (writeReg s r v).text = s.text := rfl
@[simp] theorem writeReg_dout (s : State) (r : Fin 8) (v : Value) :
    (writeReg s r v).dout = s.dout := rfl
@[simp] theorem writeReg_pending (s : State) (r : Fin 8) (v : Value) :
    (writeReg s r v).pending = s.pending := rfl
@[simp] theorem writeReg_resets (s : State) (r : Fin 8) (v : Value) :
    (writeReg s r v).resets = s.resets := rfl

@[simp] theorem writeZ_x (s : State) (b : Bool) :
    (writeZ s b).x = s.x := rfl
@[simp] theorem writeZ_written (s : State) (b : Bool) :
    (writeZ s b).written = s.written := rfl
@[simp] theorem writeZ_z (s : State) (b : Bool) :
    (writeZ s b).z = b := rfl
@[simp] theorem writeZ_capf (s : State) (b : Bool) :
    (writeZ s b).capf = s.capf := rfl
@[simp] theorem writeZ_len (s : State) (b : Bool) :
    (writeZ s b).len = s.len := rfl
@[simp] theorem writeZ_text (s : State) (b : Bool) :
    (writeZ s b).text = s.text := rfl
@[simp] theorem writeZ_dout (s : State) (b : Bool) :
    (writeZ s b).dout = s.dout := rfl
@[simp] theorem writeZ_pending (s : State) (b : Bool) :
    (writeZ s b).pending = s.pending := rfl
@[simp] theorem writeZ_resets (s : State) (b : Bool) :
    (writeZ s b).resets = s.resets := rfl

@[simp] theorem writeDout_x (s : State) (w : Word) :
    (writeDout s w).x = s.x := rfl
@[simp] theorem writeDout_written (s : State) (w : Word) :
    (writeDout s w).written = s.written := rfl
@[simp] theorem writeDout_z (s : State) (w : Word) :
    (writeDout s w).z = s.z := rfl
@[simp] theorem writeDout_capf (s : State) (w : Word) :
    (writeDout s w).capf = s.capf := rfl
@[simp] theorem writeDout_len (s : State) (w : Word) :
    (writeDout s w).len = s.len := rfl
@[simp] theorem writeDout_text (s : State) (w : Word) :
    (writeDout s w).text = s.text := rfl
@[simp] theorem writeDout_dout (s : State) (w : Word) :
    (writeDout s w).dout = w := rfl
@[simp] theorem writeDout_pending (s : State) (w : Word) :
    (writeDout s w).pending = s.pending := rfl
@[simp] theorem writeDout_resets (s : State) (w : Word) :
    (writeDout s w).resets = s.resets := rfl

@[simp] theorem deliverText_some_x (s : State) (t : List Byte) :
    (deliverText s (some t)).x = s.x := rfl
@[simp] theorem deliverText_some_written (s : State) (t : List Byte) :
    (deliverText s (some t)).written = s.written := rfl
@[simp] theorem deliverText_some_z (s : State) (t : List Byte) :
    (deliverText s (some t)).z = s.z := rfl
@[simp] theorem deliverText_some_capf (s : State) (t : List Byte) :
    (deliverText s (some t)).capf = false := rfl
@[simp] theorem deliverText_some_len (s : State) (t : List Byte) :
    (deliverText s (some t)).len = BitVec.ofNat 7 t.length := rfl
@[simp] theorem deliverText_some_text (s : State) (t : List Byte) :
    (deliverText s (some t)).text = memWrite [] 0 t := rfl
@[simp] theorem deliverText_some_dout (s : State) (t : List Byte) :
    (deliverText s (some t)).dout = s.dout := rfl
@[simp] theorem deliverText_some_pending (s : State) (t : List Byte) :
    (deliverText s (some t)).pending = s.pending := rfl
@[simp] theorem deliverText_some_resets (s : State) (t : List Byte) :
    (deliverText s (some t)).resets = s.resets := rfl

@[simp] theorem deliverText_none_x (s : State) :
    (deliverText s none).x = s.x := rfl
@[simp] theorem deliverText_none_written (s : State) :
    (deliverText s none).written = s.written := rfl
@[simp] theorem deliverText_none_z (s : State) :
    (deliverText s none).z = s.z := rfl
@[simp] theorem deliverText_none_capf (s : State) :
    (deliverText s none).capf = true := rfl
@[simp] theorem deliverText_none_len (s : State) :
    (deliverText s none).len = 0#7 := rfl
@[simp] theorem deliverText_none_text (s : State) :
    (deliverText s none).text = [] := rfl
@[simp] theorem deliverText_none_dout (s : State) :
    (deliverText s none).dout = s.dout := rfl
@[simp] theorem deliverText_none_pending (s : State) :
    (deliverText s none).pending = s.pending := rfl
@[simp] theorem deliverText_none_resets (s : State) :
    (deliverText s none).resets = s.resets := rfl

@[simp] theorem applyReset_x (s : State) :
    (applyReset s).x = unwrittenRegs (s.resets + 1) := rfl
@[simp] theorem applyReset_written (s : State) :
    (applyReset s).written = noneWritten := rfl
@[simp] theorem applyReset_z (s : State) :
    (applyReset s).z = false := rfl
@[simp] theorem applyReset_capf (s : State) :
    (applyReset s).capf = false := rfl
@[simp] theorem applyReset_len (s : State) :
    (applyReset s).len = 0#7 := rfl
@[simp] theorem applyReset_text (s : State) :
    (applyReset s).text = [] := rfl
@[simp] theorem applyReset_dout (s : State) :
    (applyReset s).dout = Config.unwrittenDout (s.resets + 1) := rfl
@[simp] theorem applyReset_pending (s : State) :
    (applyReset s).pending = s.pending := rfl
@[simp] theorem applyReset_resets (s : State) :
    (applyReset s).resets = s.resets + 1 := rfl

@[simp] theorem takeEvent_x (s : State) :
    (takeEvent s).x = s.x := rfl
@[simp] theorem takeEvent_written (s : State) :
    (takeEvent s).written = s.written := rfl
@[simp] theorem takeEvent_z (s : State) :
    (takeEvent s).z = s.z := rfl
@[simp] theorem takeEvent_capf (s : State) :
    (takeEvent s).capf = s.capf := rfl
@[simp] theorem takeEvent_len (s : State) :
    (takeEvent s).len = s.len := rfl
@[simp] theorem takeEvent_text (s : State) :
    (takeEvent s).text = s.text := rfl
@[simp] theorem takeEvent_dout (s : State) :
    (takeEvent s).dout = s.dout := rfl
@[simp] theorem takeEvent_pending (s : State) :
    (takeEvent s).pending = s.pending.tail := rfl
@[simp] theorem takeEvent_resets (s : State) :
    (takeEvent s).resets = s.resets := rfl

@[simp] theorem presentCommand_x (s : State) (c : Command) :
    (presentCommand s c).x = s.x := rfl
@[simp] theorem presentCommand_written (s : State) (c : Command) :
    (presentCommand s c).written = s.written := rfl
@[simp] theorem presentCommand_z (s : State) (c : Command) :
    (presentCommand s c).z = s.z := rfl
@[simp] theorem presentCommand_capf (s : State) (c : Command) :
    (presentCommand s c).capf = s.capf := rfl
@[simp] theorem presentCommand_len (s : State) (c : Command) :
    (presentCommand s c).len = s.len := rfl
@[simp] theorem presentCommand_text (s : State) (c : Command) :
    (presentCommand s c).text = s.text := rfl
@[simp] theorem presentCommand_dout (s : State) (c : Command) :
    (presentCommand s c).dout = s.dout := rfl
@[simp] theorem presentCommand_pending (s : State) (c : Command) :
    (presentCommand s c).pending = .command c :: s.pending := rfl
@[simp] theorem presentCommand_resets (s : State) (c : Command) :
    (presentCommand s c).resets = s.resets := rfl

@[simp] theorem deliverText_x (s : State) (o : Option (List Byte)) :
    (deliverText s o).x = s.x := by
  cases o <;> rfl
@[simp] theorem deliverText_written (s : State) (o : Option (List Byte)) :
    (deliverText s o).written = s.written := by
  cases o <;> rfl
@[simp] theorem deliverText_z (s : State) (o : Option (List Byte)) :
    (deliverText s o).z = s.z := by
  cases o <;> rfl
@[simp] theorem deliverText_dout (s : State) (o : Option (List Byte)) :
    (deliverText s o).dout = s.dout := by
  cases o <;> rfl
@[simp] theorem deliverText_pending (s : State) (o : Option (List Byte)) :
    (deliverText s o).pending = s.pending := by
  cases o <;> rfl
@[simp] theorem deliverText_resets (s : State) (o : Option (List Byte)) :
    (deliverText s o).resets = s.resets := by
  cases o <;> rfl

end Sys2Proof.Machine
end

