-- ==== Sys2Proof/Laws/Ops.lean ====
section
/-! SUPPORT. What each named operation does, once: registers, the TEXT memory, and the delivery of a text. -/

namespace Sys2Proof.Machine

/-! ### Registers -/

@[simp] theorem readReg_writeReg_same (s : State) (r : Fin 8) (v : Value) : readReg (writeReg s r v) r = v := by
  simp [readReg]

theorem readReg_writeReg_ne {s : State} {q r : Fin 8} (v : Value) (h : q ≠ r) :
    readReg (writeReg s r v) q = readReg s q := by
  have : r.val ≠ q.val := fun e => h (Fin.ext e.symm)
  simp [readReg, Vector.getElem_set_ne, this]

theorem readReg_writeReg (s : State) (q r : Fin 8) (v : Value) :
    readReg (writeReg s r v) q = if q = r then v else readReg s q := by
  split
  · next h => subst h; simp
  · next h => exact readReg_writeReg_ne v h

theorem written_writeReg (s : State) (q r : Fin 8) (v : Value) :
    (writeReg s r v).written[q.val] = if q = r then true else s.written[q.val] := by
  split
  · next h => subst h; simp
  · next h =>
    have : r.val ≠ q.val := fun e => h (Fin.ext e.symm)
    simp [Vector.getElem_set_ne, this]

@[simp] theorem readReg_writeZ (s : State) (b : Bool) (r : Fin 8) : readReg (writeZ s b) r = readReg s r := rfl
@[simp] theorem readReg_writeDout (s : State) (w : Word) (r : Fin 8) : readReg (writeDout s w) r = readReg s r := rfl
@[simp] theorem readReg_takeEvent (s : State) (r : Fin 8) : readReg (takeEvent s) r = readReg s r := rfl
@[simp] theorem readReg_deliverText (s : State) (o : Option (List Byte)) (r : Fin 8) :
    readReg (deliverText s o) r = readReg s r := by
  cases o <;> rfl

/-! ### The TEXT memory -/

theorem cellAt_putCell (m : List Host.Cell) (a i : Nat) (b : Byte) :
    cellAt (putCell m a b) i = if i = a then some b else cellAt m i := by
  induction m with
  | nil => simp only [putCell, cellAt, eq_comm]
  | cons c m ih =>
    obtain ⟨k, d⟩ := c
    simp only [putCell]
    split
    · simp only [cellAt, eq_comm]
    · split
      · next h => subst h; simp only [cellAt, eq_comm]; split <;> rfl
      · next h =>
        simp only [cellAt, ih]
        split
        · next hk => rw [if_neg (by rintro rfl; exact h hk.symm)]
        · rfl

theorem Memory.wf_nil : Memory.wf [] := by decide

/-- The indexes after a put: the old ones and the new one. -/
theorem mem_keys_putCell {m : List Host.Cell} {a i : Nat} {b : Byte} :
    i ∈ (putCell m a b).map Prod.fst ↔ i = a ∨ i ∈ m.map Prod.fst := by
  induction m with
  | nil => simp [putCell]
  | cons c m ih =>
    obtain ⟨k, d⟩ := c
    simp only [putCell]
    split
    · simp
    · split
      · next h => subst h; simp
      · simp only [List.map_cons, List.mem_cons, ih]; tauto

/-- A put inside the space keeps the canonical form. -/
theorem putCell_wf {m : List Host.Cell} {a : Nat} (b : Byte) (ha : a < 78) (h : Memory.wf m) :
    Memory.wf (putCell m a b) := by
  refine ⟨?_, fun c hc => ?_⟩
  · have := h.1
    clear h
    induction m with
    | nil => simp [putCell]
    | cons c m ih =>
      obtain ⟨k, d⟩ := c
      obtain ⟨hk, hm⟩ := List.pairwise_cons.1 this
      simp only [putCell]
      split
      · next hak =>
        refine List.pairwise_cons.2 ⟨fun j hj => ?_, this⟩
        rcases List.mem_cons.1 hj with rfl | hj
        · exact hak
        · exact hak.trans (hk j hj)
      · split
        · next h => subst h; exact this
        · next h1 h2 =>
          refine List.pairwise_cons.2 ⟨fun j hj => ?_, ih hm⟩
          rcases mem_keys_putCell.1 hj with rfl | hj
          · simp only at h1 h2 ⊢; omega
          · exact hk j hj
  · have : c.1 ∈ (putCell m a b).map Prod.fst := List.mem_map_of_mem hc
    rcases mem_keys_putCell.1 this with hca | hm
    · omega
    · obtain ⟨d, hd, he⟩ := List.mem_map.1 hm
      exact he ▸ h.2 d hd

/-- Every write keeps the canonical form of the TEXT memory. -/
theorem memWrite_wf (bs : List Byte) : ∀ (m : List Host.Cell) (a : Nat), Memory.wf m → Memory.wf (memWrite m a bs) := by
  induction bs with
  | nil => intro m a h; exact h
  | cons b bs ih =>
    intro m a h
    apply ih
    split
    · next ha => exact putCell_wf b ha h
    · exact h

/-- What a write inside the space leaves at every index (R37). -/
theorem cellAt_memWrite (bs : List Byte) : ∀ (m : List Host.Cell) (a i : Nat), a + bs.length ≤ 78 →
    cellAt (memWrite m a bs) i = if a ≤ i ∧ i < a + bs.length then bs[i - a]? else cellAt m i := by
  induction bs with
  | nil =>
    intro m a i _
    rw [if_neg (by simp only [List.length_nil]; omega)]; rfl
  | cons b bs ih =>
    intro m a i h
    simp only [List.length_cons] at h ⊢
    rw [memWrite, if_pos (by omega), ih _ _ _ (by omega), cellAt_putCell]
    by_cases hia : i = a
    · subst hia; simp
    · by_cases hr : a ≤ i ∧ i < a + (bs.length + 1)
      · rw [if_pos (by omega), if_pos hr, show i - a = (i - (a + 1)) + 1 by omega, List.getElem?_cons_succ]
      · rw [if_neg (by omega), if_neg hr, if_neg hia]

/-- Past the last index a put appends. -/
theorem putCell_append {m : List Host.Cell} {a : Nat} {b : Byte} (h : ∀ c ∈ m, c.1 < a) :
    putCell m a b = m ++ [(a, b)] := by
  induction m with
  | nil => rfl
  | cons c m ih =>
    obtain ⟨k, d⟩ := c
    have hk : k < a := h (k, d) (by simp)
    simp only [putCell, if_neg (show ¬ a < k by omega), if_neg (show ¬ a = k by omega),
      ih fun c hc => h c (by simp [hc]), List.cons_append]

/-- Past the last index a write appends its bytes in order. -/
theorem memWrite_append (bs : List Byte) : ∀ (m : List Host.Cell) (a : Nat), a + bs.length ≤ 78 →
    (∀ c ∈ m, c.1 < a) → memWrite m a bs = m ++ (List.range' a bs.length).zip bs := by
  induction bs with
  | nil => intro m a _ _; simp [memWrite]
  | cons b bs ih =>
    intro m a h hm
    simp only [List.length_cons] at h
    rw [memWrite, if_pos (by omega), putCell_append hm, ih _ _ (by omega)]
    · simp [List.range'_succ]
    · intro c hc
      rcases List.mem_append.1 hc with hc | hc
      · exact Nat.lt_succ_of_lt (hm c hc)
      · rw [List.mem_singleton.1 hc]; exact Nat.lt_succ_self a

/-- A text that fits fills the indexes from 0 on (R33, R37). -/
theorem memWrite_text {t : List Byte} (h : t.length ≤ 78) :
    memWrite [] 0 t = (List.range t.length).zip t := by
  rw [memWrite_append t [] 0 (by omega) (by simp), List.nil_append, List.range_eq_range']

/-- Reading what is there: `memRead` answers the bytes exactly when each index holds one. -/
theorem memRead_eq_some (m : List Host.Cell) : ∀ (n a : Nat) (bs : List Byte),
    memRead m a n = some bs ↔ bs.length = n ∧ ∀ i, i < n → cellAt m (a + i) = bs[i]? := by
  intro n
  induction n with
  | zero =>
    intro a bs
    cases bs <;> simp [memRead]
  | succ n ih =>
    intro a bs
    constructor
    · intro h
      simp only [memRead] at h
      split at h
      · next b cs hb hcs =>
        obtain rfl := Option.some.inj h
        obtain ⟨hl, hc⟩ := (ih _ _).1 hcs
        refine ⟨by simp [hl], fun i hi => ?_⟩
        cases i with
        | zero => simpa using hb
        | succ i => rw [show a + (i + 1) = a + 1 + i by omega, List.getElem?_cons_succ]; exact hc i (by omega)
      · cases h
    · rintro ⟨hl, hc⟩
      cases bs with
      | nil => simp at hl
      | cons b cs =>
        have h0 : cellAt m a = some b := by simpa using hc 0 (by omega)
        have h1 : memRead m (a + 1) n = some cs := (ih _ _).2 ⟨by simpa using hl, fun i hi => by
          have := hc (i + 1) (by omega)
          rwa [show a + (i + 1) = a + 1 + i by omega, List.getElem?_cons_succ] at this⟩
        simp [memRead, h0, h1]

/-- A write inside the space reads back as the bytes written (R37). -/
theorem memRead_memWrite (m : List Host.Cell) (a : Nat) (bs : List Byte) (h : a + bs.length ≤ 78) :
    memRead (memWrite m a bs) a bs.length = some bs := by
  refine (memRead_eq_some _ _ _ _).2 ⟨rfl, fun i hi => ?_⟩
  rw [cellAt_memWrite _ _ _ _ h, if_pos (by omega), Nat.add_sub_cancel_left]

/-- The delivery of a text keeps the canonical form of the TEXT memory. -/
theorem deliverText_wf (s : State) (o : Option (List Byte)) : Memory.wf (deliverText s o).text := by
  cases o with
  | none => exact Memory.wf_nil
  | some t => exact memWrite_wf t [] 0 Memory.wf_nil

end Sys2Proof.Machine
end

