-- ==== Sys2Proof/Machine/Drivers.lean ====
section
/-! DEFINITION. What a host issues: the pseudo-instructions (30_encoding.md R55) and the Fibonacci drivers as command
sequences (47_fibonacci_sequences.md R170 to R176) and what they deliver. Nothing here adds state or commands to the block. -/

namespace Sys2Proof.Machine

/-- `DBL xd, xa` (R55). -/
def pseudoDbl (rd ra : RegIdx) : Instr := .shl1 rd ra false

/-- `HALF xd, xa` (R55). -/
def pseudoHalf (rd ra : RegIdx) : Instr := .shr1 rd ra false

/-- `LI xd, imm` (R55). -/
def pseudoLi (rd : RegIdx) (imm : BitVec 64) : Instr := .fromint rd imm

/-- `SQR xd, xa` (R55). -/
def pseudoSqr (rd ra : RegIdx) : Instr := .mul rd ra ra

/-- The doubling step `DSTEP` (R171). -/
def dstep : List Instr :=
  [.shl1 2 1 false, .sub 2 2 0, .mul 3 0 2, .mul 4 0 0, .mul 5 1 1, .add 1 4 5, .mov 0 3]

/-- The advance step `ASTEP` (R172). -/
def astep : List Instr := [.add 2 0 1, .mov 0 1, .mov 1 2]

/-- The iterations of the fast-doubling driver for the bits `n-1` down to 0 of `k` (R173). -/
def fastBits (k : Nat) : Nat → List Instr
  | 0 => []
  | n + 1 => dstep ++ (if k.testBit n then astep else []) ++ fastBits k n

/-- `FASTFIB(k)`: every bit of `k` is consumed, the leading one included (R173, R174, 90_conflicts.md C4). The result is
in `x[0]`. -/
def fastFib (k : Nat) : List Instr :=
  if k ≤ 1 then [.fromint 0 (BitVec.ofNat 64 k)]
  else [.fromint 0 0#64, .fromint 1 1#64] ++ fastBits k (k.log2 + 1)

/-- The repetitions of the naive driver, the same three commands as the advance step (R175, R172). -/
def naiveBody : Nat → List Instr
  | 0 => []
  | n + 1 => astep ++ naiveBody n

/-- `NAIVEFIB(k)` (R175). The result is in `x[2]` for `k ≥ 2`, in `x[0]` for `k ≤ 1`. -/
def naiveFib (k : Nat) : List Instr :=
  if k ≤ 1 then [.fromint 0 (BitVec.ofNat 64 k)]
  else [.fromint 0 0#64, .fromint 1 1#64] ++ naiveBody (k - 1)

/-- The host's part of a run: the canonical command words of a list of instructions, in order (R170, R213). -/
def issue (is : List Instr) : List HostEvent := is.map fun i => .command (encode i)

/-- What a list of instructions does, one after the other, stopping where one does not answer a next state (R208). -/
def runList : List Instr → State → Host.Outcome State Fault Refusal
  | [], s => .next s
  | i :: is, s =>
    match exec i s with
    | .next t => runList is t
    | .fault f => .fault f
    | .refused r => .refused r

/-- The Fibonacci numbers `F(n)`, integers without a bound (R173). -/
def fibonacci : Nat → Nat
  | 0 => 0
  | 1 => 1
  | n + 2 => fibonacci (n + 1) + fibonacci n

/-- `wrap_256(F(n))`, what the drivers deliver for `n` (R173, R175, R176). -/
def fibValue (n : Nat) : Value := wrap256 (fibonacci n)

/-- The pair `(F(n), F(n+1))` modulo `2^256`. -/
def fibPair (n : Nat) : Value × Value := (fibValue n, fibValue (n + 1))

/-- The doubling of a pair, `(a (2 b - a), a^2 + b^2)`, by the wrapping primitives (R171, R176). -/
def doublePair (p : Value × Value) : Value × Value :=
  (mulValue p.1 (subValue (shl1Value p.2 false) p.1), addValue (mulValue p.1 p.1) (mulValue p.2 p.2))

/-- The advance of a pair, `(b, a + b)` (R172). -/
def advancePair (p : Value × Value) : Value × Value := (p.2, addValue p.1 p.2)

/-- The pair `(a, b)` a state holds, `(x[0], x[1])` (R170). -/
def pairOf (s : State) : Value × Value := (readReg s 0, readReg s 1)

/-- What the register `r` holds once a list of instructions has run, if all of them complete. -/
def driverResult (is : List Instr) (r : RegIdx) (s : State) : Option Value :=
  match runList is s with
  | .next t => some (readReg t r)
  | .fault _ => none
  | .refused _ => none

/-- The result of `FASTFIB(k)`, in `x[0]` (R173). -/
def fastResult (k : Nat) (s : State) : Option Value := driverResult (fastFib k) 0 s

/-- The result of `NAIVEFIB(k)`, in `x[2]` for `k ≥ 2` and in `x[0]` for `k ≤ 1` (R175). -/
def naiveResult (k : Nat) (s : State) : Option Value := driverResult (naiveFib k) (if k ≤ 1 then 0 else 2) s

/-- The doubling identities hold modulo `2^256`, whatever wrapped in between: the wrapping primitives take the pair at `n`
to the pair at `2n`, and one advance further (R176). -/
def DoublingIdentities : Prop :=
  ∀ n : Nat, doublePair (fibPair n) = fibPair (2 * n) ∧ advancePair (fibPair n) = fibPair (n + 1)

/-- Agreement of the drivers (R176): for every `k`, past the overflow boundary too, and from any two states, both complete
and deliver `wrap_256(F(k))`. -/
def DriversAgree : Prop :=
  ∀ (k : Nat) (s s' : State), fastResult k s = some (fibValue k) ∧ naiveResult k s' = some (fibValue k) ∧
    fastResult k s = naiveResult k s'

end Sys2Proof.Machine
end

