-- ==== Sys2Proof/Laws/Drivers.lean ====
section
/-! SUPPORT. What the host's Fibonacci sequences compute: both drivers deliver `wrap_256(F(k))` for every `k`
(47_fibonacci_sequences.md R171 to R177). -/

namespace Sys2Proof.Machine

theorem fibonacci_eq_fib : ∀ n, fibonacci n = Nat.fib n
  | 0 => rfl
  | 1 => rfl
  | n + 2 => by rw [fibonacci, fibonacci_eq_fib (n + 1), fibonacci_eq_fib n, Nat.fib_add_two, Nat.add_comm]

theorem doublePair_eq (p : Value × Value) :
    doublePair p = (p.1 * (p.2 + p.2 - p.1), p.1 * p.1 + p.2 * p.2) := by
  simp [doublePair, shl1Value_eq, subValue_eq_sub, mulValue_eq_mul, addValue_eq_add]

/-- Advancing the pair at `n` gives the pair at `n + 1` (R172). -/
theorem advancePair_fibPair (n : Nat) : advancePair (fibPair n) = fibPair (n + 1) := by
  simp only [advancePair, fibPair, fibValue, fibonacci, addValue_eq_add, Nat.cast_add, wrap256_add, BitVec.add_comm]

/-- Doubling the pair at `n` gives the pair at `2n` (R171, R176). -/
theorem doublePair_fibPair (n : Nat) : doublePair (fibPair n) = fibPair (2 * n) := by
  have ha : ((Nat.fib (2 * n) : Nat) : Int) = Nat.fib n * (Nat.fib (n + 1) + Nat.fib (n + 1) - Nat.fib n) := by
    have hle : Nat.fib n ≤ 2 * Nat.fib (n + 1) := by
      have := Nat.fib_le_fib_succ (n := n)
      omega
    rw [Nat.fib_two_mul, Nat.cast_mul, Nat.cast_sub hle]
    push_cast; ring
  have hb : ((Nat.fib (2 * n + 1) : Nat) : Int) = Nat.fib n * Nat.fib n + Nat.fib (n + 1) * Nat.fib (n + 1) := by
    rw [Nat.fib_two_mul_add_one]
    push_cast; ring
  simp only [doublePair_eq, fibPair, fibValue, fibonacci_eq_fib, ha, hb, wrap256_mul, wrap256_sub, wrap256_add]

/-- The doubling identities hold modulo `2^256` (R176). -/
theorem doublingIdentities : DoublingIdentities := fun n => ⟨doublePair_fibPair n, advancePair_fibPair n⟩

/-- The intermediate `2 F(n+1) - F(n)` of a doubling is `F(n+1) + F(n-1)`, never negative (R176). -/
theorem doubling_intermediate (n : Nat) :
    2 * (fibonacci (n + 2) : Int) - fibonacci (n + 1) = fibonacci (n + 2) + fibonacci n := by
  simp only [fibonacci, Nat.cast_add]; ring

/-- A list of instructions issued after another runs from where the first one ends. -/
theorem runList_append {is js : List Instr} {s t : State} (h : runList is s = .next t) :
    runList (is ++ js) s = runList js t := by
  induction is generalizing s with
  | nil => cases h; rfl
  | cons i is ih =>
    simp only [runList, List.cons_append] at h ⊢
    cases he : exec i s with
    | next u => rw [he] at h; exact ih h
    | fault f => rw [he] at h; cases h
    | refused r => rw [he] at h; cases h

/-- No command looks at what the host is still going to present (20_memory.md R42). -/
theorem exec_pending {i : Instr} {s t : State} (es : List HostEvent) (h : exec i s = .next t) :
    exec i { s with pending := es } = .next { t with pending := es } := by
  cases i with
  | mov rd ra =>
    cases h
    by_cases he : rd = ra
    · subst he; simp [exec, execMov]
    · simp only [exec, execMov, if_neg he]; rfl
  | todec ra cap =>
    cases h
    have : readReg { s with pending := es } ra = readReg s ra := rfl
    simp only [exec, execTodec, this]
    cases render (readReg s ra) (capacity cap) <;> rfl
  | _ => cases h; rfl

/-- Issuing the command words of a list one after the other runs the list, wherever each word decodes back (R170, R208). -/
theorem run_issue (is : List Instr) : ∀ (s t : State), (∀ i ∈ is, decode (encode i) = i) →
    runList is s = .next t →
    Host.Core.run Sys2Proof.core is.length { s with pending := issue is } = .next { t with pending := [] } := by
  induction is with
  | nil => intro s t _ h; cases h; rfl
  | cons i is ih =>
    intro s t hd h
    simp only [runList] at h
    cases he : exec i s with
    | fault f => rw [he] at h; cases h
    | refused r => rw [he] at h; cases h
    | next u =>
      rw [he] at h
      have hs : step { s with pending := issue (i :: is) } = .next { u with pending := issue is } := by
        have := exec_pending (issue is) he
        rw [← hd i (by simp)] at this
        exact this
      have hr := ih u t (fun j hj => hd j (by simp [hj])) h
      simp only [List.length_cons, Host.Core.run, core] at hr ⊢
      rw [hs]
      exact hr

/-- The effect of `DSTEP` on the pair (R171). -/
theorem runList_dstep (s : State) : ∃ t, runList dstep s = .next t ∧ pairOf t = doublePair (pairOf s) := by
  refine ⟨_, rfl, ?_⟩
  simp [pairOf, doublePair, readReg_writeReg]

/-- The effect of `ASTEP` on the pair, whose second half it leaves in `x[2]` too (R172). -/
theorem runList_astep (s : State) : ∃ t, runList astep s = .next t ∧ pairOf t = advancePair (pairOf s) ∧
    readReg t 2 = readReg t 1 := by
  refine ⟨_, rfl, ?_, ?_⟩ <;> simp [pairOf, advancePair, readReg_writeReg]

/-- The invariant of the fast-doubling driver: after the bits down to `i`, `n = floor(k / 2^i)` (R173). -/
theorem runList_fastBits (k : Nat) : ∀ (n : Nat) (s : State), pairOf s = fibPair (k >>> n) →
    ∃ t, runList (fastBits k n) s = .next t ∧ pairOf t = fibPair k := by
  intro n
  induction n with
  | zero => intro s h; exact ⟨s, rfl, h⟩
  | succ n ih =>
    intro s h
    obtain ⟨t, ht, hpt⟩ := runList_dstep s
    rw [h, doublePair_fibPair] at hpt
    have hk : k >>> n = 2 * (k >>> (n + 1)) + (k.testBit n).toNat := by
      rw [Nat.shiftRight_succ, Nat.testBit_eq_decide_div_mod_eq, Nat.shiftRight_eq_div_pow]
      have := Nat.mod_two_eq_zero_or_one (k / 2 ^ n)
      rcases this with h | h <;> simp [h] <;> omega
    have hstep : ∃ u, runList (dstep ++ (if k.testBit n then astep else [])) s = .next u ∧
        pairOf u = fibPair (k >>> n) := by
      rw [runList_append ht, hk]
      cases k.testBit n with
      | false => exact ⟨t, rfl, hpt⟩
      | true =>
        obtain ⟨u, hu, hpu, _⟩ := runList_astep t
        exact ⟨u, hu, by rw [hpu, hpt, advancePair_fibPair]; rfl⟩
    obtain ⟨u, hu, hfib⟩ := hstep
    obtain ⟨v, hv, hkv⟩ := ih u hfib
    exact ⟨v, by rw [fastBits, runList_append hu, hv], hkv⟩

/-- Loading `k ≤ 1` by FROMINT gives `F(k)` (R173, R175). -/
theorem runList_base {k : Nat} (hk : k ≤ 1) (s : State) :
    ∃ t, runList [.fromint 0 (BitVec.ofNat 64 k)] s = .next t ∧ readReg t 0 = fibValue k := by
  refine ⟨_, rfl, ?_⟩
  rw [readReg_writeReg_same]
  rcases Nat.le_one_iff_eq_zero_or_eq_one.1 hk with rfl | rfl <;> decide

/-- The start `(F(0), F(1))` of both drivers. -/
theorem runList_start (s : State) :
    ∃ t, runList [.fromint 0 0#64, .fromint 1 1#64] s = .next t ∧ pairOf t = fibPair 0 := by
  refine ⟨_, rfl, Prod.ext ?_ ?_⟩
  · exact (readReg_writeReg_ne _ (by decide)).trans ((readReg_writeReg_same ..).trans (by decide))
  · exact (readReg_writeReg_same ..).trans (by decide)

/-- The fast-doubling driver delivers `wrap_256(F(k))` in `x[0]` (R173). -/
theorem fastResult_eq (k : Nat) (s : State) : fastResult k s = some (fibValue k) := by
  suffices h : ∃ t, runList (fastFib k) s = .next t ∧ readReg t 0 = fibValue k by
    obtain ⟨t, ht, hk⟩ := h
    rw [fastResult, driverResult, ht, ← hk]
  unfold fastFib
  split
  · next hk => exact runList_base hk s
  · next hk =>
    obtain ⟨t, ht, hfib⟩ := runList_start s
    have h0 : k >>> (k.log2 + 1) = 0 := by
      rw [Nat.shiftRight_eq_div_pow]
      exact Nat.div_eq_of_lt Nat.lt_log2_self
    obtain ⟨u, hu, hku⟩ := runList_fastBits k (k.log2 + 1) t (h0 ▸ hfib)
    exact ⟨u, by rw [runList_append ht, hu], congrArg Prod.fst hku⟩

/-- The invariant of the naive driver (R175). -/
theorem runList_naiveBody : ∀ (j n : Nat) (s : State), pairOf s = fibPair n →
    ∃ t, runList (naiveBody j) s = .next t ∧ pairOf t = fibPair (n + j) ∧ (0 < j → readReg t 2 = readReg t 1) := by
  intro j
  induction j with
  | zero => intro n s h; exact ⟨s, rfl, h, fun h => absurd h (Nat.lt_irrefl 0)⟩
  | succ j ih =>
    intro n s h
    obtain ⟨t, ht, hpt, ht2⟩ := runList_astep s
    rw [h, advancePair_fibPair] at hpt
    obtain ⟨u, hu, hnu, h2⟩ := ih (n + 1) t hpt
    refine ⟨u, (runList_append ht).trans hu, by rwa [Nat.add_succ, ← Nat.succ_add], fun _ => ?_⟩
    cases j with
    | zero => cases hu; exact ht2
    | succ j => exact h2 (Nat.succ_pos j)

/-- The naive driver delivers `wrap_256(F(k))` in `x[2]` for `k ≥ 2` and in `x[0]` for `k ≤ 1` (R175). -/
theorem naiveResult_eq (k : Nat) (s : State) : naiveResult k s = some (fibValue k) := by
  suffices h : ∃ t, runList (naiveFib k) s = .next t ∧ readReg t (if k ≤ 1 then 0 else 2) = fibValue k by
    obtain ⟨t, ht, hk⟩ := h
    rw [naiveResult, driverResult, ht, ← hk]
  unfold naiveFib
  split
  · next hk => exact runList_base hk s
  · next hk =>
    obtain ⟨t, ht, hfib⟩ := runList_start s
    obtain ⟨u, hu, hku, h2⟩ := runList_naiveBody (k - 1) 0 t hfib
    refine ⟨u, by rw [runList_append ht, hu], ?_⟩
    have h1 : readReg u 1 = fibValue (0 + (k - 1) + 1) := congrArg Prod.snd hku
    rw [h2 (by omega), h1]
    congr 1
    omega

/-- Up to `k = 368` the delivered value read as signed is `F(k)` itself, and `F(369)` is too large (R177). -/
theorem fibValue_exact {k : Nat} (hk : k ≤ 368) : (fibValue k).toInt = fibonacci k ∧ 2 ^ 255 ≤ fibonacci 369 := by
  have h368 : Nat.fib 368 < 2 ^ 255 := by norm_num
  have h369 : 2 ^ 255 ≤ Nat.fib 369 := by norm_num
  have hle := Nat.fib_mono hk
  refine ⟨?_, by rw [fibonacci_eq_fib]; exact h369⟩
  rw [fibValue, wrap256, BitVec.toInt_ofInt, fibonacci_eq_fib]
  exact Int.bmod_eq_of_le (by omega) (by omega)

/-- The drivers agree for every `k`, past the overflow boundary too (R176). -/
theorem driversAgree : DriversAgree := fun k s s' =>
  ⟨fastResult_eq k s, naiveResult_eq k s', (fastResult_eq k s).trans (naiveResult_eq k s').symm⟩

end Sys2Proof.Machine
end

