-- ==== Sys2Proof/Laws/Exec.lean ====
section
/-! SUPPORT. What a command and a step can do, said once: later proofs take their cases from here. -/

namespace Sys2Proof.Machine

/-- The shapes of a command's next state: a copy of a register to itself, one register written, two registers written, `Z`, `DOUT`, or a rendering (R13). -/
theorem exec_cases {i : Instr} {s t : State} (h : exec i s = .next t) :
    (∃ rd, i = .mov rd rd ∧ t = s) ∨
    (∃ rd v, i.dests = [rd] ∧ t = writeReg s rd v) ∨
    (∃ rd rd2 q r, i.dests = [rd, rd2] ∧ t = writeReg (writeReg s rd q) rd2 r) ∨
    (∃ ra, i = .iszero ra ∧ t = writeZ s (zeroFlag (readReg s ra))) ∨
    (∃ ra j, i = .getw ra j ∧ t = writeDout s (wordOf (readReg s ra) j)) ∨
    (∃ ra cap, i = .todec ra cap ∧ t = deliverText s (render (readReg s ra) (capacity cap))) := by
  cases i with
  | iszero ra => cases h; exact .inr (.inr (.inr (.inl ⟨ra, rfl, rfl⟩)))
  | getw ra j => cases h; exact .inr (.inr (.inr (.inr (.inl ⟨ra, j, rfl, rfl⟩))))
  | todec ra cap => cases h; exact .inr (.inr (.inr (.inr (.inr ⟨ra, cap, rfl, rfl⟩))))
  | divrem rd rd2 ra rb => cases h; exact .inr (.inr (.inl ⟨rd, rd2, _, _, rfl, rfl⟩))
  | mov rd ra =>
    cases h
    by_cases he : rd = ra
    · subst he; exact .inl ⟨rd, rfl, if_pos rfl⟩
    · exact .inr (.inl ⟨rd, readReg s ra, rfl, if_neg he⟩)
  | _ => cases h; exact .inr (.inl ⟨_, _, rfl, rfl⟩)

/-- The shapes of a step (70_reset_and_hazards.md R205, R208, R213). -/
theorem step_cases {s t : State} (h : step s = .next t) :
    (s.pending = [] ∧ t = s) ∨
    (∃ es, s.pending = .reset :: es ∧ t = applyReset (takeEvent s)) ∨
    (∃ c es, s.pending = .command c :: es ∧ exec (decode c) (takeEvent s) = .next t) := by
  unfold step nextEvent at h
  cases hp : s.pending with
  | nil => rw [hp] at h; cases h; exact .inl ⟨rfl, rfl⟩
  | cons e es =>
    rw [hp] at h
    cases e with
    | reset => cases h; exact .inr (.inl ⟨es, rfl, rfl⟩)
    | command c => exact .inr (.inr ⟨c, es, rfl, h⟩)

/-- After a rendering that fits, the TEXT memory holds the text from index 0 on and nothing else (R150). -/
theorem text_deliverText_some (s : State) (a : Value) :
    (deliverText s (some (decimalText a))).text = (List.range (decimalText a).length).zip (decimalText a) :=
  memWrite_text (decimalText_length_le a)

/-- `LEN` holds the length of a text that fits: 78 needs seven bits only (R18). -/
theorem len_deliverText_some (s : State) (a : Value) :
    (deliverText s (some (decimalText a))).len.toNat = (decimalText a).length := by
  have := decimalText_length_le a
  simp only [deliverText_some_len, BitVec.toNat_ofNat]
  omega

end Sys2Proof.Machine
end

