-- ==== Sys2Proof/Laws/Frame.lean ====
section
/-! SUPPORT. The frame of each shared operation, in the terms of Safety.lean. -/

namespace Sys2Proof.Machine

theorem SameOutputs.refl (s : State) : SameOutputs s s := ⟨rfl, rfl, rfl, fun _ => rfl, rfl, rfl, rfl⟩

theorem SameRegsExcept.refl (ds : List RegIdx) (s : State) : SameRegsExcept ds s s := fun _ _ => ⟨rfl, rfl⟩

/-- Writing a register changes that register and its mark only (10_state.md R13). -/
theorem writesOnly_writeReg (s : State) (rd : RegIdx) (v : Value) : WritesOnly rd v s (writeReg s rd v) := by
  refine ⟨readReg_writeReg_same s rd v, by simp, fun r hr => ?_, SameOutputs.refl s⟩
  have hne : r ≠ rd := by simpa using hr
  rw [readReg_writeReg_ne v hne, written_writeReg, if_neg hne]
  exact ⟨rfl, rfl⟩

/-- A command that writes one register answers the state with that register written, and nothing else changed. -/
theorem finishReg_spec (s : State) (rd : RegIdx) (v : Value) :
    ∃ t, finishReg s rd v = .next t ∧ WritesOnly rd v s t :=
  ⟨_, rfl, writesOnly_writeReg s rd v⟩

/-- Two writes, the second one winning where the destinations coincide (44_divide.md R126). -/
theorem writeReg_writeReg_frame (s : State) (rd rd2 : RegIdx) (q r : Value) :
    SameRegsExcept [rd, rd2] s (writeReg (writeReg s rd q) rd2 r) ∧
      SameOutputs s (writeReg (writeReg s rd q) rd2 r) := by
  refine ⟨fun p hp => ?_, SameOutputs.refl s⟩
  obtain ⟨h1, h2⟩ : p ≠ rd ∧ p ≠ rd2 := by simpa using hp
  rw [readReg_writeReg_ne _ h2, readReg_writeReg_ne _ h1, written_writeReg, if_neg h2, written_writeReg, if_neg h1]
  exact ⟨rfl, rfl⟩

/-- The delivery of a text changes `CAPF`, `LEN` and TEXT only (46_decimal_render.md R150). -/
theorem sameButText_deliverText (s : State) (o : Option (List Byte)) : SameButText s (deliverText s o) := by
  cases o <;> exact ⟨fun _ _ => ⟨rfl, rfl⟩, rfl, rfl, rfl, rfl⟩

end Sys2Proof.Machine
end

