-- ==== Sys2Proof/Laws/PerInstr.lean ====
section
/-! SUPPORT. One statement about every instruction as syntax, proved constructor by constructor: its encoding carries its
own opcode and leaves every unused bit zero (30_encoding.md R48, R50). -/

namespace Sys2Proof.Laws.EncodeCanonical

/-- The encoding of `i` selects `i`'s operation and is the canonical word of its format. -/
def Statement (i : Instr) : Prop :=
  opcodeField (encode i).cmd = i.opcode ∧ isCanonical (encode i) = true

/-- A packed word is canonical when the fields its format does not use are zero. -/
theorem of_fields {i : Instr} (hop : opcodeField (encode i).cmd = i.opcode)
    (hcmd : (encode i).cmd &&& ~~~ i.opcode.format.cmdMask = 0#32)
    (hopd : (encode i).opd &&& ~~~ i.opcode.format.opdMask = 0#64) : Statement i := by
  refine ⟨hop, ?_⟩
  simp only [isCanonical, Command.canonicalFor, hop, hcmd, hopd, beq_self_eq_true, Bool.and_self]

theorem zero (rd : RegIdx) : Statement (.zero rd) :=
  of_fields (by simp [encode, Instr.opcode, opcodeField_packCmd]) (by revert rd; decide) BitVec.zero_and

theorem fromint (rd : RegIdx) (imm : BitVec 64) : Statement (.fromint rd imm) :=
  of_fields (by simp [encode, Instr.opcode, opcodeField_packCmd]) (by simp only [encode, Instr.opcode]; revert rd; decide)
    (by simp [Instr.opcode, Opcode.format, Format.opdMask])

theorem mov (rd ra : RegIdx) : Statement (.mov rd ra) :=
  of_fields (by simp [encode, Instr.opcode, opcodeField_packCmd]) (by revert rd ra; decide) BitVec.zero_and

theorem add (rd ra rb : RegIdx) : Statement (.add rd ra rb) :=
  of_fields (by simp [encode, Instr.opcode, opcodeField_packCmd]) (by revert rd ra rb; decide +kernel) BitVec.zero_and

theorem sub (rd ra rb : RegIdx) : Statement (.sub rd ra rb) :=
  of_fields (by simp [encode, Instr.opcode, opcodeField_packCmd]) (by revert rd ra rb; decide +kernel) BitVec.zero_and

theorem neg (rd ra : RegIdx) : Statement (.neg rd ra) :=
  of_fields (by simp [encode, Instr.opcode, opcodeField_packCmd]) (by revert rd ra; decide) BitVec.zero_and

theorem abs (rd ra : RegIdx) : Statement (.abs rd ra) :=
  of_fields (by simp [encode, Instr.opcode, opcodeField_packCmd]) (by revert rd ra; decide) BitVec.zero_and

theorem shl1 (rd ra : RegIdx) (cin : Bool) : Statement (.shl1 rd ra cin) :=
  of_fields (by simp [encode, Instr.opcode, opcodeField_packCmd]) (by revert rd ra cin; decide +kernel) BitVec.zero_and

theorem shr1 (rd ra : RegIdx) (cin : Bool) : Statement (.shr1 rd ra cin) :=
  of_fields (by simp [encode, Instr.opcode, opcodeField_packCmd]) (by revert rd ra cin; decide +kernel) BitVec.zero_and

theorem mul (rd ra rb : RegIdx) : Statement (.mul rd ra rb) :=
  of_fields (by simp [encode, Instr.opcode, opcodeField_packCmd]) (by revert rd ra rb; decide +kernel) BitVec.zero_and

theorem div (rd ra rb : RegIdx) : Statement (.div rd ra rb) :=
  of_fields (by simp [encode, Instr.opcode, opcodeField_packCmd]) (by revert rd ra rb; decide +kernel) BitVec.zero_and

theorem rem (rd ra rb : RegIdx) : Statement (.rem rd ra rb) :=
  of_fields (by simp [encode, Instr.opcode, opcodeField_packCmd]) (by revert rd ra rb; decide +kernel) BitVec.zero_and

theorem divrem (rd rd2 ra rb : RegIdx) : Statement (.divrem rd rd2 ra rb) :=
  of_fields (by simp [encode, Instr.opcode, opcodeField_packCmd]) (by revert rd rd2 ra rb; decide +kernel) BitVec.zero_and

theorem iszero (ra : RegIdx) : Statement (.iszero ra) :=
  of_fields (by simp [encode, Instr.opcode, opcodeField_packCmd]) (by revert ra; decide) BitVec.zero_and

theorem getw (ra : RegIdx) (widx : WordIdx) : Statement (.getw ra widx) :=
  of_fields (by simp [encode, Instr.opcode, opcodeField_packCmd]) (by revert ra widx; decide) BitVec.zero_and

theorem todec (ra : RegIdx) (cap : BitVec 32) : Statement (.todec ra cap) := by
  refine of_fields (by simp [encode, Instr.opcode, opcodeField_packCmd]) (by simp only [encode, Instr.opcode]; revert ra; decide) ?_
  have hm : ~~~ Format.c.opdMask = BitVec.setWidth 64 (BitVec.allOnes 32) <<< 32 := by decide
  ext i hi
  simp only [Instr.opcode, Opcode.format, encode, hm, BitVec.getElem_and, BitVec.getElem_setWidth,
    BitVec.getElem_shiftLeft, BitVec.getElem_zero]
  by_cases h : i < 32
  · simp [h]
  · simp [BitVec.getLsbD_of_ge cap i (by omega)]

end Sys2Proof.Laws.EncodeCanonical
end

