-- ==== Sys2Proof/Machine/Assembly.lean ====
section
/-! DEFINITION. The assembler's spelling of a command (30_encoding.md R54). No rule of execution rests on it. -/

namespace Sys2Proof.Machine

/-- The mnemonic of an operation (R48). -/
def mnemonic : Opcode → String
  | .zero => "ZERO"
  | .fromint => "FROMINT"
  | .mov => "MOV"
  | .add => "ADD"
  | .sub => "SUB"
  | .neg => "NEG"
  | .abs => "ABS"
  | .shl1 => "SHL1"
  | .shr1 => "SHR1"
  | .mul => "MUL"
  | .div => "DIV"
  | .rem => "REM"
  | .divrem => "DIVREM"
  | .iszero => "ISZERO"
  | .getw => "GETW"
  | .todec => "TODEC"

/-- A register as the listing writes it: `xN` (R54). -/
def regName (r : Fin 8) : String := "x" ++ toString r.val

/-- The operands in the order of R54: destinations first, then sources, then the immediate. -/
def operandNames : Instr → List String
  | .zero rd => [regName rd]
  | .fromint rd imm => [regName rd, toString imm.toInt]
  | .mov rd ra | .neg rd ra | .abs rd ra => [regName rd, regName ra]
  | .add rd ra rb | .sub rd ra rb | .mul rd ra rb | .div rd ra rb | .rem rd ra rb =>
    [regName rd, regName ra, regName rb]
  | .shl1 rd ra cin | .shr1 rd ra cin => [regName rd, regName ra, toString cin.toNat]
  | .divrem rd rd2 ra rb => [regName rd, regName rd2, regName ra, regName rb]
  | .iszero ra => [regName ra]
  | .getw ra widx => [regName ra, toString widx.val]
  | .todec ra cap => [regName ra, toString cap.toNat]

/-- A listing line: mnemonic, then operands (R54). -/
def assembly (i : Instr) : String := mnemonic i.opcode ++ " " ++ String.intercalate ", " (operandNames i)

end Sys2Proof.Machine
end

