-- ==== Sys2Proof/Tests/Slice0.lean ====
section
/-! SUPPORT. Tests. Expected values are the spec's own: 30_encoding.md R56, the tables of 95_test_vectors.md section 2 and
the scenarios of its section 1. Each test is about one step or one function on fixed values; each witness shows that the
hypotheses of a statement can be met. -/

namespace Sys2Proof.Tests

open Sys2Proof.Machine

/-- A state with two operands in `x[0]` and `x[1]`, both written, and zeros elsewhere, unwritten. -/
def withOperands (a b : Value) : State :=
  { State.reset with x := #v[a, b, 0, 0, 0, 0, 0, 0], written := #v[true, true, false, false, false, false, false, false] }

/-- Whether an outcome is a next state that passes a check. -/
def nextWith (o : Host.Outcome State Fault Refusal) (p : State → Bool) : Bool :=
  match o with
  | .next t => p t
  | .fault _ => false
  | .refused _ => false

/-- One step of the command `(cmd, opd)` on a state with two operands. -/
def runOn (a b : Value) (cmd : BitVec 32) (opd : BitVec 64) (p : State → Bool) : Bool :=
  nextWith (step (presentCommand (withOperands a b) ⟨cmd, opd⟩)) p

/-- The bytes of a character list. -/
def bytes (s : List Char) : List Byte := s.map fun c => BitVec.ofNat 8 c.toNat

/-! ### Well-formedness: an unused bit set in each format is refused by the check (R47, R50) -/

theorem test_canonical_accepts : isCanonical ⟨0x33280000#32, 0#64⟩ = true := by decide
theorem test_canonical_refuses_z : isCanonical ⟨0x0E400000#32, 0#64⟩ = false := by decide
theorem test_canonical_refuses_i : isCanonical ⟨0x10000001#32, 5#64⟩ = false := by decide
theorem test_canonical_refuses_r2 : isCanonical ⟨0x2C480000#32, 0#64⟩ = false := by decide
theorem test_canonical_refuses_r3 : isCanonical ⟨0x33280FFF#32, 0#64⟩ = false := by decide
theorem test_canonical_refuses_s : isCanonical ⟨0x7480C000#32, 0#64⟩ = false := by decide
theorem test_canonical_refuses_d : isCanonical ⟨0xCF668000#32, 0#64⟩ = false := by decide
theorem test_canonical_refuses_t : isCanonical ⟨0xD7C00000#32, 0#64⟩ = false := by decide
theorem test_canonical_refuses_w : isCanonical ⟨0xE1403001#32, 0#64⟩ = false := by decide
theorem test_canonical_refuses_c : isCanonical ⟨0xF0800000#32, 0x100000010#64⟩ = false := by decide
theorem test_canonical_refuses_opd : isCanonical ⟨0x33280000#32, 1#64⟩ = false := by decide

/-! ### Decoding: a word of each command, bit by bit as R46 lays it out, is the command it stands for -/

theorem test_decode_zero : decode ⟨0b0000_111_000_000_000_0_000_000000000000#32, 0#64⟩ = .zero 7 := by decide
theorem test_decode_fromint :
    decode ⟨0b0001_001_000_000_000_0_000_000000000000#32, 0x00000000FFFFFFFF#64⟩ = .fromint 1 4294967295#64 := by decide
theorem test_decode_mov : decode ⟨0b0010_110_001_000_000_0_000_000000000000#32, 0#64⟩ = .mov 6 1 := by decide
theorem test_decode_add : decode ⟨0b0011_001_100_101_000_0_000_000000000000#32, 0#64⟩ = .add 1 4 5 := by decide
theorem test_decode_sub : decode ⟨0b0100_100_011_000_000_0_000_000000000000#32, 0#64⟩ = .sub 4 3 0 := by decide
theorem test_decode_neg : decode ⟨0b0101_011_011_000_000_0_000_000000000000#32, 0#64⟩ = .neg 3 3 := by decide
theorem test_decode_abs : decode ⟨0b0110_001_110_000_000_0_000_000000000000#32, 0#64⟩ = .abs 1 6 := by decide
theorem test_decode_shl1 : decode ⟨0b0111_010_010_000_000_1_000_000000000000#32, 0#64⟩ = .shl1 2 2 true := by decide
theorem test_decode_shr1 : decode ⟨0b1000_001_010_000_000_1_000_000000000000#32, 0#64⟩ = .shr1 1 2 true := by decide
theorem test_decode_mul : decode ⟨0b1001_010_000_001_000_0_000_000000000000#32, 0#64⟩ = .mul 2 0 1 := by decide
theorem test_decode_div : decode ⟨0b1010_011_010_001_000_0_000_000000000000#32, 0#64⟩ = .div 3 2 1 := by decide
theorem test_decode_rem : decode ⟨0b1011_001_010_011_000_0_000_000000000000#32, 0#64⟩ = .rem 1 2 3 := by decide
theorem test_decode_divrem : decode ⟨0b1100_111_101_100_110_0_000_000000000000#32, 0#64⟩ = .divrem 7 6 5 4 := by decide
theorem test_decode_iszero : decode ⟨0b1101_000_111_000_000_0_000_000000000000#32, 0#64⟩ = .iszero 7 := by decide
theorem test_decode_getw : decode ⟨0b1110_000_101_000_000_0_011_000000000000#32, 0#64⟩ = .getw 5 3 := by decide
theorem test_decode_todec : decode ⟨0b1111_000_010_000_000_0_000_000000000000#32, 0x10#64⟩ = .todec 2 16#32 := by decide

/-! Words with unused bits set, from 95_test_vectors.md section 2.12. -/

theorem test_decode_all_ones : decode ⟨0xFFFFFFFF#32, 0x10#64⟩ = .todec 7 16#32 := by decide
theorem test_decode_add_reserved_set : decode ⟨0x3329F000#32, 0#64⟩ = .add 1 4 5 := by decide
theorem test_decode_iszero_rd_set : decode ⟨0xD7C00000#32, 0#64⟩ = .iszero 7 := by decide
theorem test_decodeTableWord_add : decodeTableWord 32 0x33280000 = some (.add 1 4 5) := by decide
theorem test_decodeTableWord_opd : decodeTableWord 96 0xFFFFFFFFFFFFFFFB10000000 = some (.fromint 0 (BitVec.ofInt 64 (-5))) := by decide

/-! ### One step of each command, on the spec's vectors -/

/-- R65's example. -/
theorem test_zero : runOn 5 5 0x0E000000 0 (fun t => readReg t 7 == 0#256 && t.written[7]) = true := by decide
/-- Section 2.1: `FROMINT x0, -4294967296`. -/
theorem test_fromint : runOn 5 5 0x10000000 0xFFFFFFFF00000000
    (fun t => readReg t 0 == 0xFFFFFFFFFFFFFFFFFFFFFFFFFFFFFFFFFFFFFFFFFFFFFFFFFFFFFFFF00000000#256) = true := by decide
/-- Section 2.1: `FROMINT x0, 2147483648`: the sign test is on bit 63. -/
theorem test_fromint_bit31 : runOn 5 5 0x10000000 0x0000000080000000
    (fun t => readReg t 0 == 0x80000000#256) = true := by decide
/-- R68, R52: a copy of an unwritten register to itself changes nothing. -/
theorem test_mov_self : runOn 1 55 0x2CC00000 0 (fun t => readReg t 3 == 0#256 && !t.written[3]) = true := by decide
/-- R68's example. -/
theorem test_mov : runOn 1 55 0x20400000 0 (fun t => readReg t 0 == 55#256 && readReg t 1 == 55#256) = true := by decide
/-- Section 2.2: MAX + 1 = MIN. -/
theorem test_add_wraps : runOn maxValue 1 0x34080000 0 (fun t => readReg t 2 == minValue) = true := by decide
/-- Section 2.2: the carry from word 0 to word 1. -/
theorem test_add_carry : runOn 0xFFFFFFFF 1 0x34080000 0 (fun t => readReg t 2 == 0x100000000#256) = true := by decide
/-- Section 2.3: 1 - 2^224. -/
theorem test_sub_borrow : runOn 1 (BitVec.ofNat 256 (2 ^ 224)) 0x44080000 0 (fun t => readReg t 2 ==
    0xFFFFFFFF00000000000000000000000000000000000000000000000000000001#256) = true := by decide
/-- Section 2.3: 0 - MIN = MIN. -/
theorem test_sub_min : runOn 0 minValue 0x44080000 0 (fun t => readReg t 2 == minValue) = true := by decide
/-- Section 2.4: -MIN == MIN. -/
theorem test_neg_min : runOn minValue 0 0x54000000 0 (fun t => readReg t 2 == minValue) = true := by decide
/-- Section 2.4: word 0 stays 0, the carry reaches word 1. -/
theorem test_neg_word : runOn 0x100000000 0 0x54000000 0 (fun t => readReg t 2 ==
    0xFFFFFFFFFFFFFFFFFFFFFFFFFFFFFFFFFFFFFFFFFFFFFFFFFFFFFFFF00000000#256) = true := by decide
/-- Section 2.4: abs(-2^224), the borrow ripples through words 0 to 6 (90_conflicts.md C1). -/
theorem test_abs_borrow : runOn 0xFFFFFFFF00000000000000000000000000000000000000000000000000000000 0 0x64000000 0
    (fun t => readReg t 2 == BitVec.ofNat 256 (2 ^ 224)) = true := by decide
/-- Section 2.4: abs(MIN) = MIN. -/
theorem test_abs_min : runOn minValue 0 0x64000000 0 (fun t => readReg t 2 == minValue) = true := by decide
/-- Section 2.5: MAX shifted left with 1 coming in is -1. -/
theorem test_shl1 : runOn maxValue 0 0x74008000 0 (fun t => readReg t 2 == BitVec.allOnes 256) = true := by decide
/-- Section 2.5: 2^255 and 1, with 1 coming in: the top bit is dropped. -/
theorem test_shl1_drops : runOn (minValue + 1#256) 0 0x74008000 0 (fun t => readReg t 2 == 3#256) = true := by decide
/-- Section 2.6: SHR1(-3, 0) = -2. -/
theorem test_shr1_arithmetic : runOn (wrap256 (-3)) 0 0x84000000 0 (fun t => readReg t 2 == wrap256 (-2)) = true := by decide
/-- Section 2.6, by D11: SHR1(5, 1). -/
theorem test_shr1_in_bit : runOn 5 0 0x84008000 0 (fun t => readReg t 2 == minValue + 2#256) = true := by decide
/-- Section 2.7, the scenario S9: -5 * 7 = -35. -/
theorem test_mul : runOn (wrap256 (-5)) 7 0x94080000 0 (fun t => readReg t 2 == wrap256 (-35)) = true := by decide
/-- Section 2.7: 2^128 * 2^127 = MIN. -/
theorem test_mul_wraps : runOn (BitVec.ofNat 256 (2 ^ 128)) (BitVec.ofNat 256 (2 ^ 127)) 0x94080000 0
    (fun t => readReg t 2 == minValue) = true := by decide
/-- The scenario S10: -35 / 7 = -5. -/
theorem test_div : runOn (wrap256 (-35)) 7 0xA4080000 0 (fun t => readReg t 2 == wrap256 (-5)) = true := by decide
/-- Section 2.8: MIN / -1 = MIN. -/
theorem test_div_overflow : runOn minValue (wrap256 (-1)) 0xA4080000 0 (fun t => readReg t 2 == minValue) = true := by decide
/-- Section 2.8: the remainder has the dividend's sign. -/
theorem test_rem_sign : runOn (wrap256 (-35)) 8 0xB4080000 0 (fun t => readReg t 2 == wrap256 (-3)) = true := by decide
/-- Section 2.8: MIN rem 10^9 = -564819968. -/
theorem test_rem_min : runOn minValue 1000000000 0xB4080000 0 (fun t => readReg t 2 == wrap256 (-564819968)) = true := by decide
/-- R126's example, `DIVREM x2, x3, x0, x1`. -/
theorem test_divrem : runOn (wrap256 (-35)) 8 0xC40B0000 0
    (fun t => readReg t 2 == wrap256 (-4) && readReg t 3 == wrap256 (-3)) = true := by decide
/-- R126: with `RD2 = RD` the remainder remains. -/
theorem test_divrem_same : runOn (wrap256 (-35)) 8 0xC40A0000 0 (fun t => readReg t 2 == wrap256 (-3)) = true := by decide
/-- Section 2.10: MIN is not zero. -/
theorem test_iszero_min : runOn minValue 0 0xD0000000 0 (fun t => !t.z) = true := by decide
theorem test_iszero_zero : runOn 0 5 0xD0000000 0 (fun t => t.z) = true := by decide
/-- Section 2.10: word 7 of 2^224. -/
theorem test_getw_top : runOn (BitVec.ofNat 256 (2 ^ 224)) 0 0xE0007000 0 (fun t => t.dout == 1#32) = true := by decide
/-- Section 2.10: word 2 of F(368). -/
theorem test_getw_middle : runOn 0x4FE5802F65A345E549F0AF364D9451287F30F78F2F8B6EE5FA119136BD8FF325 0 0xE0002000 0
    (fun t => t.dout == 0x2F8B6EE5#32) = true := by decide
/-- The scenario S6: TODEC of -123 in 16 bytes; `STATUS` packs `LEN` = 4 (R22). -/
theorem test_todec : runOn (wrap256 (-123)) 0 0xF0000000 16 (fun t => !t.capf && t.len == 4#7 &&
    memRead t.text 0 4 == some [0x2D#8, 0x31#8, 0x32#8, 0x33#8] && statusView t == 0x00000400#32) = true := by decide
/-- Section 2.11: -100000000 does not fit 10 bytes. -/
theorem test_todec_no_room_for_sign : runOn (wrap256 (-100000000)) 0 0xF0000000 10
    (fun t => t.capf && t.len == 0#7 && memRead t.text 0 1 == none) = true := by decide
/-- Section 2.11: MIN at its smallest capacity. -/
theorem test_render_min : render minValue 82 = some (bytes
    "-57896044618658097711785492504343953926634992332820282019728792003956564819968".toList) := by decide
theorem test_render_min_short : render minValue 81 = none := by decide
/-- The datapaths on the spec's vectors: sections 2.4, 2.7, 2.8, 2.9 and 2.11. -/
theorem test_absPath : absPath 0xFFFFFFFF00000000000000000000000000000000000000000000000000000000 = BitVec.ofNat 256 (2 ^ 224) := by decide
theorem test_mulPath : mulPath (wrap256 (-81985529216486895)) 1147797409030816545 =
    0xFFFFFFFFFFFFFFFFFFFFFFFFFFFFFFFFFFEDE05FF528828BDDDC927701A9E731#256 := by decide +kernel
theorem test_sdivrem : sdivrem maxValue 1000000000 =
    (0x0000000225C17D04DAD2965CC5A02A23E254C0C3F75D9178046AEB27CE1CA574#256, 0x21AA77FF#256) := by decide +kernel
theorem test_sdivrem_zero : sdivrem minValue 0 = (2#256, minValue) := by decide +kernel
theorem test_renderPath : renderPath (wrap256 (-1000000000)) 19 = some (bytes "-1000000000".toList) := by decide +kernel
/-- A reset event clears the flags and the written marks (R205). -/
theorem test_reset_event : nextWith (step { withOperands 1 2 with pending := [.reset], z := true, len := 3#7 })
    (fun t => !t.z && t.len == 0#7 && !t.written[0] && t.pending == []) = true := by decide
/-- The host's view after reset (R200, R26). -/
theorem test_view_reset : (hostView State.reset).status = 0#32 := by decide
/-- R54's listing lines. -/
theorem test_assembly : assembly (.divrem 7 6 5 4) = "DIVREM x7, x6, x5, x4" := by decide
theorem test_assembly_imm : assembly (.fromint 0 (BitVec.ofInt 64 (-5))) = "FROMINT x0, -5" := by decide
/-- R173's command counts: 36 commands for `k = 10`, 77 for `k = 368`. -/
theorem test_fastFib_count : (fastFib 10).length = 36 ∧ (fastFib 368).length = 77 := by decide
/-- The source's own values among R179's. -/
theorem test_fibonacci : [0, 1, 2, 10, 20].map fibonacci = [0, 1, 1, 55, 6765] := by decide
/-- R176 at the boundary: `F(369)` wraps to the pattern R177 gives. -/
theorem test_fibValue_wraps : wrap256 (Nat.fib 369 : Nat) =
    0x814675988EB7041005EE9F4355A59A00629B7C0123408B65D25F59EC1A328E62#256 := by norm_num; decide
/-- The `CMD` column of R171. -/
theorem test_dstep_words : dstep.map (fun i => (encode i).cmd) =
    [0x74400000#32, 0x44800000#32, 0x96100000#32, 0x98000000#32, 0x9A480000#32, 0x33280000#32, 0x20C00000#32] := by decide
/-- The `CMD` column of R172. -/
theorem test_astep_words : astep.map (fun i => (encode i).cmd) = [0x34080000#32, 0x20400000#32, 0x22800000#32] := by decide

/-! ### Witnesses: the hypotheses of the statements can be met -/

/-- UnusedBitsAreIgnored: two words that differ in unused bits only. -/
theorem witness_UnusedBitsAreIgnored :
    let c : Command := ⟨0x33280FFF#32, 1#64⟩
    let d : Command := ⟨0x3329F000#32, 2#64⟩
    opcodeField c.cmd = opcodeField d.cmd ∧
      c.cmd &&& (opcodeField c.cmd).format.cmdMask = d.cmd &&& (opcodeField c.cmd).format.cmdMask ∧
      c.opd &&& (opcodeField c.cmd).format.opdMask = d.opd &&& (opcodeField c.cmd).format.opdMask ∧ c ≠ d := by decide
theorem witness_OperandWordUse_other :
    (decode ⟨0x33280000#32, 1#64⟩).opcode ≠ .fromint ∧ (decode ⟨0x33280000#32, 1#64⟩).opcode ≠ .todec := by decide
theorem witness_OperandWordUse_fromint : decode ⟨0x10000000#32, 7#64⟩ = .fromint 0 7#64 := by decide
theorem witness_OperandWordUse_todec : decode ⟨0xF0800000#32, 0xFFFFFFFFFFFFFFFF#64⟩ = .todec 2 0xFFFFFFFF#32 := by decide
theorem witness_StepRunsTheDecodedCommand :
    (presentCommand State.reset ⟨0x33280FFF#32, 0#64⟩).pending = .command ⟨0x33280FFF#32, 0#64⟩ :: [] ∧
      (presentCommand State.reset (encode (.mov 6 1))).pending = .command (encode (.mov 6 1)) :: [] := ⟨rfl, rfl⟩
theorem witness_BlockHoldsItsState : (withOperands 1 2).pending = [] := rfl
theorem witness_ResetEventClears : ({ withOperands 1 2 with pending := [.reset] } : State).pending = .reset :: [] := rfl
theorem witness_StepKeepsOutputInvariant :
    (presentCommand (withOperands (wrap256 (-7)) 0) ⟨0xF0000000#32, 16#64⟩).Inv ∧
      nextWith (step (presentCommand (withOperands (wrap256 (-7)) 0) ⟨0xF0000000#32, 16#64⟩))
        (fun t => t.len == 2#7) = true := by decide
theorem witness_ConstructionResults : 2 ≤ (2 : WordIdx).val ∧ 2 ≤ (7 : WordIdx).val := by decide
theorem witness_SignExtensionLaw_bounds :
    (immValue 0x7FFFFFFFFFFFFFFF#64).toInt = 2 ^ 63 - 1 ∧ (immValue 0x8000000000000000#64).toInt = -2 ^ 63 ∧
      ¬ (wrap256 (2 ^ 63)).toInt ≤ 2 ^ 63 - 1 := by decide
theorem witness_SignMaskLaw : (0 : Nat) < 256 ∧ 255 < 256 := by decide
theorem witness_AdderFamilyLaws : minValue ≠ 0#256 ∧ wrap256 (-1) ≠ minValue := by decide
theorem witness_ShiftLeftResult : 1 ≤ 1 ∧ 1 ≤ 255 ∧ 255 ≤ 255 := by decide
theorem witness_ShiftRightResult : 0 ≤ 254 ∧ 254 ≤ 254 := by decide
theorem witness_MultiplySignRule_small : (wrap256 (-5)).toInt.natAbs * (wrap256 7).toInt.natAbs < 2 ^ 255 ∧
    wrap256 (-5) ≠ 0#256 ∧ wrap256 7 ≠ 0#256 := by decide
theorem witness_MultiplySignRule_edge :
    (wrap256 (2 ^ 128)).toInt.natAbs * (wrap256 (-2 ^ 127)).toInt.natAbs = 2 ^ 255 ∧
      (wrap256 (2 ^ 128)).msb ≠ (wrap256 (-2 ^ 127)).msb := by decide
theorem witness_RestoringCoreLaw : 1 ≤ (1#256).toNat ∧ (1#256).toNat ≤ 2 ^ 255 ∧
    1 ≤ minValue.toNat ∧ minValue.toNat ≤ 2 ^ 255 := by decide
theorem witness_SignWrapperLaw : wrap256 (-1) ≠ 0#256 ∧ ¬ (maxValue = minValue ∧ wrap256 (-1) = wrap256 (-1)) := by decide
theorem witness_DivideAndRemainderResults :
    readReg (withOperands minValue (wrap256 (-1))) 1 ≠ 0#256 ∧ readReg (withOperands minValue 0) 1 = 0#256 := by decide
theorem witness_DivremResult : readReg (withOperands 5 minValue) 1 ≠ 0#256 ∧ readReg (withOperands 5 0) 1 = 0#256 ∧
    (2 : RegIdx) ≠ 3 := by decide
theorem witness_ZeroDivisorCompletes : readReg (withOperands minValue 0) 1 = 0#256 ∧ (2 : RegIdx) ≠ 3 := by decide
theorem witness_DivisionFamilyLaws : wrap256 (-1) ≠ 0#256 ∧ ¬ (wrap256 5 = minValue ∧ wrap256 (-1) = wrap256 (-1)) := by decide
theorem witness_StatusViewBits : (2 ≤ 2 ∧ 2 ≤ 7) ∧ (2 ≤ 7 ∧ 7 ≤ 7) ∧ (8 ≤ 8 ∧ 8 ≤ 14) ∧ (8 ≤ 14 ∧ 14 ≤ 14) ∧ 15 ≤ 15 := by decide
/-- RenderResult: both branches, at the boundary of `CAP` (R157). -/
theorem witness_RenderResult : textFits (wrap256 (-100000000)) 10 = false ∧ textFits (wrap256 (-100000000)) 11 = true := by decide
theorem witness_TextIsTheNumeral : (decDigits (magnitude 0#256)).head? = some 0 := by decide
/-- CapacityBoundaries: a value at both ends of each row of R157. -/
theorem witness_CapacityBoundaries_one_group :
    (wrap256 0).toInt = 0 ∧ (wrap256 1).toInt = 1 ∧ (wrap256 999999999).toInt = 999999999 ∧ (wrap256 (-1)).toInt = -1 ∧
      (wrap256 (-99999999)).toInt = -99999999 ∧ (wrap256 (-100000000)).toInt = -100000000 ∧
      (wrap256 (-999999999)).toInt = -999999999 := by decide
theorem witness_CapacityBoundaries_two_groups :
    (wrap256 (10 ^ 9)).toInt = 10 ^ 9 ∧ (wrap256 (10 ^ 18 - 1)).toInt = 10 ^ 18 - 1 ∧
      (wrap256 (-(10 ^ 18 - 1))).toInt = -(10 ^ 18 - 1) ∧ (wrap256 (-10 ^ 17)).toInt = -10 ^ 17 := by decide
theorem witness_CapacityBoundaries_groups :
    (1 ≤ 1 ∧ 10 ^ (9 * (1 - 1)) ≤ (wrap256 1).toInt ∧ (wrap256 1).toInt ≤ 10 ^ (9 * 1) - 1) ∧
      10 ^ (9 * (9 - 1)) ≤ maxValue.toInt ∧ maxValue.toInt ≤ 10 ^ (9 * 9) - 1 := by decide
theorem witness_CapacityBoundaries_negative :
    ((wrap256 (-100000000)).msb = true ∧
      (decDigits (magnitude (wrap256 (-100000000)))).length = 9 * groupCount (wrap256 (-100000000))) ∧
    ((wrap256 (-99999999)).msb = true ∧
      (decDigits (magnitude (wrap256 (-99999999)))).length < 9 * groupCount (wrap256 (-99999999))) := by decide
theorem witness_MinimumValueRendering : readReg (withOperands minValue 0) 0 = minValue ∧ 82 ≤ (82#32).toNat ∧
    (81#32).toNat < 82 := by decide
theorem witness_TextRoundTrip : (wrap256 (-1)).msb = true ∧ 28 ≤ 28 := by decide
theorem witness_CapacityFailureMarker : ∃ t, exec (.todec 0 9#32) (withOperands 1 2) = .next t := ⟨_, rfl⟩
theorem witness_CapacityFailureMarker_pair : ∃ t t', readReg (withOperands 1 2) 0 = readReg (withOperands 1 3) 0 ∧
    exec (.todec 0 10#32) (withOperands 1 2) = .next t ∧ exec (.todec 0 10#32) (withOperands 1 3) = .next t' :=
  ⟨_, _, rfl, rfl, rfl⟩
theorem witness_TextAboveLenHasNoValue : ∃ t, exec (.todec 0 10#32) (withOperands 1 2) = .next t := ⟨_, rfl⟩
theorem witness_ReadWriteTable : ∃ t t', (∀ r ∈ (Instr.mov 5 0).sources,
      readReg (withOperands 1 2) r = readReg (withOperands 1 3) r) ∧
    exec (.mov 5 0) (withOperands 1 2) = .next t ∧ exec (.mov 5 0) (withOperands 1 3) = .next t' :=
  ⟨_, _, by decide, rfl, rfl⟩
/-- UnwrittenRegistersDoNotMatter: two states that differ in the unwritten `x[5]`. -/
theorem witness_UnwrittenRegistersDoNotMatter :
    let s' : State := { withOperands 1 2 with x := #v[1, 2, 0, 0, 0, 99, 0, 0] }
    AgreeOnWritten (withOperands 1 2) s' ∧ ReadsWritten (.add 2 0 1) (withOperands 1 2) ∧ s' ≠ withOperands 1 2 := by
  refine ⟨⟨rfl, by decide, rfl, rfl, rfl, rfl, rfl, rfl, rfl⟩, ?_, ?_⟩
  · unfold ReadsWritten; decide
  · intro h
    have := congrArg (fun s => readReg s 5) h
    exact absurd this (by decide)
theorem witness_ValidTextIsReadable : (withOperands 1 2).Inv := by decide
theorem witness_CommandsFollowTheirDatapaths_division : DivisorNonzero (.div 2 0 1) (withOperands minValue (wrap256 (-1))) := by
  unfold DivisorNonzero; decide
theorem witness_CommandsFollowTheirDatapaths_other : DivisorNonzero (.add 2 0 1) (withOperands 1 0) := trivial
theorem witness_WrittenUntilReset : ∃ t, step (presentCommand (withOperands 1 2) ⟨0x0E000000#32, 0#64⟩) = .next t ∧
    (presentCommand (withOperands 1 2) ⟨0x0E000000#32, 0#64⟩).pending.head? ≠ some .reset := ⟨_, rfl, by decide⟩
theorem witness_RepeatingIsIdempotent : ∃ t, (∀ r ∈ (Instr.add 2 0 1).dests, r ∉ (Instr.add 2 0 1).sources) ∧
    exec (.add 2 0 1) (withOperands 1 2) = .next t := ⟨_, by decide, rfl⟩
theorem witness_AliasedOperands : readReg (withOperands 7 (wrap256 (-2))) 1 ≠ 0#256 ∧ (0 : RegIdx) ≠ 1 := by decide

end Sys2Proof.Tests
end

/-! PROOFS. The reads and writes columns of 10_state.md R13, column by column, for every command. -/

namespace Sys2Proof.Machine

/-- The commands without a destination are the three that write output state, each its own part (R13). -/
theorem dests_ne_nil_or_writes_outputs (i : Instr) :
    (i.dests ≠ [] ∧ i.opcode ≠ .iszero ∧ i.opcode ≠ .getw ∧ i.opcode ≠ .todec) ∨
    (∃ ra, i = .iszero ra) ∨ (∃ ra j, i = .getw ra j) ∨ ∃ ra cap, i = .todec ra cap := by
  cases i with
  | iszero ra => exact .inr (.inl ⟨ra, rfl⟩)
  | getw ra j => exact .inr (.inr (.inl ⟨ra, j, rfl⟩))
  | todec ra cap => exact .inr (.inr (.inr ⟨ra, cap, rfl⟩))
  | _ => exact .inl ⟨List.cons_ne_nil _ _, nofun, nofun, nofun⟩

/-- A register a command does not list as a destination keeps its content and its mark. -/
theorem exec_sameRegsExcept {i : Instr} {s t : State} (h : exec i s = .next t) : SameRegsExcept i.dests s t := by
  rcases exec_cases h with ⟨rd, -, rfl⟩ | ⟨rd, v, hd, rfl⟩ | ⟨rd, rd2, q, r, hd, rfl⟩ | ⟨ra, -, rfl⟩ | ⟨ra, j, -, rfl⟩ |
    ⟨ra, cap, -, rfl⟩
  · exact SameRegsExcept.refl _ _
  · obtain ⟨-, -, hregs, -⟩ := writesOnly_writeReg s rd v
    exact hd ▸ hregs
  · exact hd ▸ (writeReg_writeReg_frame s rd rd2 q r).1
  · exact SameRegsExcept.refl _ _
  · exact SameRegsExcept.refl _ _
  · exact fun r _ => ⟨readReg_deliverText .., by rw [deliverText_written]⟩

/-- A command that writes a register leaves the output state and the host's part alone. -/
theorem exec_sameOutputs {i : Instr} {s t : State} (hi : i.dests ≠ []) (h : exec i s = .next t) : SameOutputs s t := by
  rcases exec_cases h with ⟨rd, -, rfl⟩ | ⟨rd, v, -, rfl⟩ | ⟨rd, rd2, q, r, -, rfl⟩ | ⟨ra, rfl, -⟩ | ⟨ra, j, rfl, -⟩ |
    ⟨ra, cap, rfl, -⟩
  · exact SameOutputs.refl _
  · obtain ⟨-, -, -, houts⟩ := writesOnly_writeReg s rd v
    exact houts
  · exact (writeReg_writeReg_frame s rd rd2 q r).2
  all_goals exact absurd rfl hi

/-- Where the sources are written, so is every destination afterwards (R14); a copy of a register to itself is the one
command that needs its source's mark (R52). -/
theorem exec_dests_written {i : Instr} {s t : State} (hw : ReadsWritten i s) (h : exec i s = .next t) :
    ∀ r ∈ i.dests, t.written[r.val] = true := by
  intro p hp
  rcases exec_cases h with ⟨rd, rfl, rfl⟩ | ⟨rd, v, hd, rfl⟩ | ⟨rd, rd2, q, r, hd, rfl⟩ | ⟨ra, rfl, -⟩ | ⟨ra, j, rfl, -⟩ |
    ⟨ra, cap, rfl, -⟩
  · exact hw p hp
  · obtain rfl : p = rd := by simpa [hd] using hp
    rw [written_writeReg, if_pos rfl]
  · have hp : p = rd ∨ p = rd2 := by simpa [hd] using hp
    rw [written_writeReg, written_writeReg]
    rcases hp with rfl | rfl <;> simp
  all_goals exact absurd hp List.not_mem_nil

/-- What a command writes to a register is a function of its sources' contents. -/
theorem exec_dests_agree {i : Instr} {s s' t t' : State} (hr : ∀ r ∈ i.sources, readReg s r = readReg s' r)
    (h : exec i s = .next t) (h' : exec i s' = .next t') : ∀ r ∈ i.dests, readReg t r = readReg t' r := by
  cases i with
  | iszero | getw | todec => exact fun _ hp => absurd hp List.not_mem_nil
  | mov rd ra =>
    have ha : readReg s ra = readReg s' ra := hr ra (List.mem_singleton_self ra)
    cases h; cases h'
    intro p hp
    obtain rfl : p = rd := List.mem_singleton.1 hp
    by_cases he : p = ra <;> simpa [he] using ha
  | divrem rd rd2 ra rb =>
    obtain ⟨ha, hb⟩ : readReg s ra = readReg s' ra ∧ readReg s rb = readReg s' rb := by simpa [Instr.sources] using hr
    cases h; cases h'
    intro p hp
    have hp : p = rd ∨ p = rd2 := by simpa [Instr.dests] using hp
    simp only [readReg_writeReg, ha, hb]
    rcases hp with rfl | rfl <;> simp
  | _ =>
    cases h; cases h'
    intro p hp
    obtain rfl := List.mem_singleton.1 hp
    simp only [Instr.sources, List.forall_mem_cons] at hr
    simp [hr]

/-- What a rendering leaves in `CAPF`, `LEN` and TEXT does not depend on the state before (R150, R155). -/
theorem deliverText_text_agree (s s' : State) (o : Option (List Byte)) :
    (deliverText s o).capf = (deliverText s' o).capf ∧ (deliverText s o).len = (deliverText s' o).len ∧
      (deliverText s o).text = (deliverText s' o).text := by
  cases o <;> exact ⟨rfl, rfl, rfl⟩

/-- Settles O47: registers by the lemmas above; output state by the three commands that write it, and unchanged by the
rest. -/
theorem readWriteTable : Obligations.ReadWriteTable := by
  intro i s s' t t' hr h h'
  refine ⟨fun r hd => ⟨exec_dests_agree hr h h' r hd, fun hw => exec_dests_written hw h r hd⟩,
    exec_sameRegsExcept h, ?_⟩
  rcases dests_ne_nil_or_writes_outputs i with ⟨hd, hz, hg, ht⟩ | ⟨ra, rfl⟩ | ⟨ra, j, rfl⟩ | ⟨ra, cap, rfl⟩
  · obtain ⟨hsz, hcapf, hlen, htext, hdout, hpend, hres⟩ := exec_sameOutputs hd h
    rw [if_neg hz, if_neg hg, if_neg ht]
    exact ⟨hsz, hdout, ⟨hcapf, hlen, htext⟩, hpend, hres⟩
  all_goals
    have ha : readReg s ra = readReg s' ra := hr ra (List.mem_singleton_self ra)
    cases h; cases h'
  · simp [Instr.opcode, ha]
  · simp [Instr.opcode, ha]
  · obtain ⟨hcapf, hlen, htext⟩ := deliverText_text_agree s s' (render (readReg s' ra) (capacity cap))
    simp [Instr.opcode, ha, hcapf, hlen, htext]

end Sys2Proof.Machine

/-! PROOFS. The encoding of 30_encoding.md R45 to R56: a command word field by field, what the decoder and the encoder make
of it, and the statements of that file. -/

namespace Sys2Proof

open Sys2Proof.Machine

/-! ### A command word is its fields side by side (R46) -/

/-- The opcode map inverts the opcode bits: the sixteen values of `CMD[31:28]` are the sixteen operations (R48). -/
theorem opcodeBits_opcodeField (w : BitVec 32) : opcodeBits (opcodeField w) = w.extractLsb' 28 4 := by
  have hbits : ∀ v : BitVec 4,
      opcodeBits (opcodeOfBits (v.getLsbD 3) (v.getLsbD 2) (v.getLsbD 1) (v.getLsbD 0)) = v := by decide
  simpa [opcodeField] using hbits (w.extractLsb' 28 4)

/-- The fields cover the word, `CMD[11:0]` last. -/
theorem append_fields (w : BitVec 32) :
    w.extractLsb' 28 4 ++ w.extractLsb' 25 3 ++ w.extractLsb' 22 3 ++ w.extractLsb' 19 3
      ++ w.extractLsb' 16 3 ++ w.extractLsb' 15 1 ++ w.extractLsb' 12 3 ++ w.extractLsb' 0 12 = w := by
  iterate 7 rw [BitVec.extractLsb'_append_extractLsb'_eq_extractLsb']
  · exact BitVec.extractLsb'_eq_self
  all_goals rfl

/-- `BitVec.and_append` as a congruence: it applies whichever way the width of the sum is written. -/
theorem append_and_append {m n : Nat} {a b c : BitVec m} {a' b' c' : BitVec n} (h : a &&& b = c)
    (h' : a' &&& b' = c') : (a ++ a') &&& (b ++ b') = c ++ c' := by
  rw [BitVec.and_append, h, h']

theorem extractLsb'_and_ofFin (w : BitVec 32) (lo : Nat) (r : Fin 8) :
    w.extractLsb' lo 3 &&& BitVec.ofFin (w := 3) r = BitVec.ofFin (w := 3) (regField w lo &&& r) := by
  apply BitVec.eq_of_toNat_eq
  simp [regField]

/-- Masking a word by a packed word whose `OPC` is all ones masks it field by field and clears `CMD[11:0]`. -/
theorem and_packCmd (w : BitVec 32) (rd ra rb rd2 : Fin 8) (cin : Bool) (widx : Fin 8) :
    w &&& packCmd .todec rd ra rb rd2 cin widx =
      packCmd (opcodeField w) (regField w 25 &&& rd) (regField w 22 &&& ra) (regField w 19 &&& rb)
        (regField w 16 &&& rd2) (w.getLsbD 15 && cin) (regField w 12 &&& widx) := by
  have hop : w.extractLsb' 28 4 &&& opcodeBits .todec = opcodeBits (opcodeField w) := by
    rw [opcodeBits_opcodeField]
    exact BitVec.and_allOnes
  have hcin : w.extractLsb' 15 1 &&& BitVec.ofBool cin = BitVec.ofBool (w.getLsbD 15 && cin) := by
    ext i hi
    obtain rfl : i = 0 := by omega
    simp
  conv_lhs => rw [← append_fields w]
  refine append_and_append ?_ BitVec.and_zero
  refine append_and_append ?_ (extractLsb'_and_ofFin w 12 widx)
  refine append_and_append ?_ hcin
  refine append_and_append ?_ (extractLsb'_and_ofFin w 16 rd2)
  refine append_and_append ?_ (extractLsb'_and_ofFin w 19 rb)
  refine append_and_append ?_ (extractLsb'_and_ofFin w 22 ra)
  exact append_and_append hop (extractLsb'_and_ofFin w 25 rd)

/-- A packed word is the sum of its shifted fields (R48). -/
theorem packCmd_eq_or (op : Opcode) (rd ra rb rd2 : Fin 8) (cin : Bool) (widx : Fin 8) :
    packCmd op rd ra rb rd2 cin widx =
      (opcodeBits op).setWidth 32 <<< 28 ||| BitVec.ofNat 32 rd.val <<< 25 ||| BitVec.ofNat 32 ra.val <<< 22 |||
        BitVec.ofNat 32 rb.val <<< 19 ||| BitVec.ofNat 32 rd2.val <<< 16 ||| BitVec.ofNat 32 cin.toNat <<< 15 |||
        BitVec.ofNat 32 widx.val <<< 12 := by
  have hreg (r : Fin 8) : (BitVec.ofFin (w := 3) r).setWidth 32 = BitVec.ofNat 32 r.val :=
    BitVec.eq_of_toNat_eq (by simp)
  have hcin : (BitVec.ofBool cin).setWidth 32 = BitVec.ofNat 32 cin.toNat := by cases cin <;> rfl
  have hwidth (x : BitVec (4 + 3 + 3 + 3 + 3 + 1 + 3 + 12)) : x = x.setWidth 32 := (BitVec.setWidth_eq x).symm
  rw [packCmd]
  refine (hwidth _).trans ?_
  simp only [BitVec.setWidth_append_eq_shiftLeft_setWidth_or, BitVec.shiftLeft_or_distrib,
    ← BitVec.shiftLeft_add, hreg, hcin]
  simp

theorem regIdx_and_seven (r : Fin 8) : r &&& 7 = r := by decide +revert

theorem regIdx_and_zero (r : Fin 8) : r &&& 0 = 0 := by decide +revert

/-! ### What the decoder and the encoder do (R45 to R51) -/

/-- The operation of a decoded word is the one its top four bits select (R48). -/
theorem decode_opcode (c : Command) : (decode c).opcode = opcodeField c.cmd := by
  unfold decode
  cases opcodeField c.cmd <;> rfl

/-- FROMINT takes the whole of `OPD` (R49). -/
theorem decode_of_fromint {c : Command} (h : opcodeField c.cmd = .fromint) :
    decode c = .fromint (regField c.cmd 25) c.opd := by
  simp only [decode, h]

/-- TODEC takes the low half of `OPD` (R49). -/
theorem decode_of_todec {c : Command} (h : opcodeField c.cmd = .todec) :
    decode c = .todec (regField c.cmd 22) (c.opd.extractLsb' 0 32) := by
  simp only [decode, h]

/-- The low half of a zero-extended capacity is the capacity (R49). -/
theorem extractLsb'_setWidth_cap (cap : BitVec 32) : (cap.setWidth 64).extractLsb' 0 32 = cap := by
  apply BitVec.eq_of_toNat_eq
  have hlt := cap.isLt
  simp only [BitVec.extractLsb'_toNat, BitVec.toNat_setWidth, Nat.shiftRight_zero]
  omega

/-- The decoder reads every instruction back from the encoder's word (R46 to R49). -/
theorem decode_encode (i : Instr) : decode (encode i) = i := by
  cases i <;>
    simp only [encode, decode, opcodeField_packCmd, rd_packCmd, ra_packCmd, rb_packCmd, rd2_packCmd, cin_packCmd,
      widx_packCmd, extractLsb'_setWidth_cap]

/-- The mask of each format, written as the fields it uses (R47). -/
theorem cmdMask_eq_packCmd (f : Format) :
    f.cmdMask = match f with
      | .z | .i => packCmd .todec 7 0 0 0 false 0
      | .r2 => packCmd .todec 7 7 0 0 false 0
      | .r3 => packCmd .todec 7 7 7 0 false 0
      | .s => packCmd .todec 7 7 0 0 true 0
      | .d => packCmd .todec 7 7 7 7 false 0
      | .t | .c => packCmd .todec 0 7 0 0 false 0
      | .w => packCmd .todec 0 7 0 0 false 7 := by
  cases f <;> decide

/-- The low half of `OPD`, masked in place, is what the decoder takes as the capacity (R47). -/
theorem opd_and_capMask (opd : BitVec 64) : opd &&& 0xFFFFFFFF#64 = (opd.extractLsb' 0 32).setWidth 64 := by
  apply BitVec.eq_of_toNat_eq
  have hmod : opd.toNat &&& 4294967295 = opd.toNat % 4294967296 := Nat.and_two_pow_sub_one_eq_mod _ 32
  simp only [BitVec.toNat_and, BitVec.toNat_ofNat, BitVec.toNat_setWidth, BitVec.extractLsb'_toNat,
    Nat.shiftRight_zero, Nat.reducePow, Nat.reduceMod, hmod]
  omega

/-- The encoder's word of a decoded command is the command's canonical form (R50). -/
theorem encode_decode (c : Command) : encode (decode c) = canonicalForm c := by
  have hfull : c.opd &&& 0xFFFFFFFFFFFFFFFF#64 = c.opd := BitVec.and_allOnes
  unfold decode canonicalForm
  cases h : opcodeField c.cmd <;>
    simp [encode, Opcode.format, Format.opdMask, cmdMask_eq_packCmd, and_packCmd, h, regIdx_and_seven,
      regIdx_and_zero, opd_and_capMask, hfull]

/-- A command and its canonical form are the same instruction (R50). -/
theorem decode_canonicalForm (c : Command) : decode (canonicalForm c) = decode c := by
  rw [← encode_decode, decode_encode]

theorem and_not_eq_zero_iff {n : Nat} (x m : BitVec n) : x &&& ~~~m = 0#n ↔ x &&& m = x := by
  have hsplit : x &&& m ||| x &&& ~~~m = x := by
    rw [← BitVec.and_or_distrib_left, BitVec.or_not_self, BitVec.and_allOnes]
  constructor
  · intro h
    simpa [h] using hsplit
  · intro h
    rw [← h, BitVec.and_assoc, BitVec.and_not_self]
    exact BitVec.and_zero

theorem isCanonical_iff (c : Command) : isCanonical c = true ↔ canonicalForm c = c := by
  obtain ⟨cmd, opd⟩ := c
  simp only [isCanonical, Command.canonicalFor, canonicalForm, Bool.and_eq_true, beq_iff_eq, and_not_eq_zero_iff,
    Command.mk.injEq]

/-- The four bits that select the operation are its opcode, shifted (R48). -/
theorem and_opcodeMask (w : BitVec 32) : w &&& 0xF0000000#32 = (opcodeBits (opcodeField w)).setWidth 32 <<< 28 := by
  have hmask : 0xF0000000#32 = packCmd .todec 0 0 0 0 false 0 := by decide
  rw [hmask, and_packCmd, packCmd_eq_or]
  simp [regIdx_and_zero]

/-- What a step does with the command presented next (R208). -/
theorem step_presentCommand (s : State) (c : Command) : step (presentCommand s c) = exec (decode c) s := rfl

/-- Every instruction runs to a next state (R192). -/
theorem exec_next (i : Instr) (s : State) : ∃ t, exec i s = .next t := by
  cases i <;> exact ⟨_, rfl⟩

/-! ### The statements of 30_encoding.md -/

/-- Settles O3: every column is `packCmd_eq_or` with the unused fields zero. -/
theorem opcodeMapColumns : Obligations.OpcodeMapColumns := by
  intro rd ra rb rd2 cin widx imm cap f c
  simp only [decode_opcode, and_opcodeMask, implies_true, and_true]
  simp [encode, packCmd_eq_or, opcodeBits, f, c]

/-- Settles O4: decoding forgets exactly what the canonical form clears. -/
theorem unusedBitsAreIgnored : Obligations.UnusedBitsAreIgnored := by
  refine ⟨fun c => ⟨encode_decode c, isCanonical_iff c⟩, fun f => by cases f <;> decide, ?_, ?_⟩
  · intro c d hop hcmd hopd
    have hform : canonicalForm c = canonicalForm d := by
      simp only [canonicalForm, hcmd, hopd, ← hop]
    rw [← decode_canonicalForm c, hform, decode_canonicalForm]
  · intro c s
    rw [step_presentCommand, step_presentCommand, decode_canonicalForm]

/-- Settles O1, on the sixteen fixed words. -/
theorem workedEncodingsReadBothWays : Obligations.WorkedEncodingsReadBothWays := by
  unfold Obligations.WorkedEncodingsReadBothWays
  decide

/-- Settles O5: the encoder's words reach every operation, and every command has a next state. -/
theorem noIllegalEncoding : Obligations.NoIllegalEncoding := by
  refine ⟨fun _ _ => ⟨_, rfl⟩, fun op => ⟨⟨packCmd op 0 0 0 0 false 0, 0⟩, ?_⟩, fun c s => ?_, by decide⟩
  · rw [decode_opcode, opcodeField_packCmd]
  · rw [step_presentCommand]
    exact exec_next (decode c) s

/-- Settles O6: the operation is the word's alone, and only the arms of FROMINT and TODEC look at `OPD`. -/
theorem operandWordUse : Obligations.OperandWordUse := by
  intro cmd opd opd'
  have hop {i : Instr} (h : decode ⟨cmd, opd⟩ = i) : opcodeField cmd = i.opcode := by
    rw [← h, decode_opcode]
  refine ⟨fun hf ht => ?_, fun rd imm h => ?_, fun ra cap h => ?_⟩
  · rw [decode_opcode] at hf ht
    unfold decode
    cases hcmd : opcodeField cmd with
    | fromint => exact absurd hcmd hf
    | todec => exact absurd hcmd ht
    | _ => rfl
  · have hdec := decode_of_fromint (c := ⟨cmd, opd⟩) (hop h)
    obtain ⟨-, himm⟩ := Instr.fromint.inj (hdec.symm.trans h)
    exact himm.symm
  · have hdec := decode_of_todec (c := ⟨cmd, opd⟩) (hop h)
    obtain ⟨-, hcap⟩ := Instr.todec.inj (hdec.symm.trans h)
    rw [← hcap, BitVec.extractLsb'_toNat, Nat.shiftRight_zero]

end Sys2Proof

/-! PROOFS. Construction and copy of 40_construct_move.md R65 to R68: the words of a constructed value, the sign-extension
law of FROMINT, and what the three commands write. -/

namespace Sys2Proof.Machine

/-! ### The bits and the words of an immediate's value (R66, R67) -/

/-- Bits that lie in `OPD[63:0]` are the immediate's own. -/
theorem extractLsb'_immValue_low (imm : BitVec 64) {lo len : Nat} (h : lo + len ≤ 64) :
    (immValue imm).extractLsb' lo len = imm.extractLsb' lo len := by
  ext i hi
  have hlow : lo + i < 64 := by omega
  have hwidth : lo + i < 256 := by omega
  simp [immValue, BitVec.getElem_signExtend, hlow, hwidth]

/-- Bits from 64 up are copies of bit 63 of the immediate. -/
theorem extractLsb'_immValue_high (imm : BitVec 64) {lo len : Nat} (hlo : 64 ≤ lo) (hlen : lo + len ≤ 256) :
    (immValue imm).extractLsb' lo len = BitVec.fill len (imm.getLsbD 63) := by
  ext i hi
  have hhigh : ¬ lo + i < 64 := by omega
  have hwidth : lo + i < 256 := by omega
  simp [immValue, BitVec.getElem_signExtend, hhigh, hwidth, BitVec.msb_eq_getLsbD_last]

/-- The words above the two of the immediate are all-ones or 0, by its sign. -/
theorem wordOf_immValue_high (imm : BitVec 64) {j : WordIdx} (hj : 2 ≤ j.val) :
    wordOf (immValue imm) j = if imm.getLsbD 63 then 0xFFFFFFFF#32 else 0x00000000#32 := by
  have hfill : wordOf (immValue imm) j = BitVec.fill 32 (imm.getLsbD 63) :=
    extractLsb'_immValue_high imm (by omega) (by omega)
  rw [hfill]
  cases imm.getLsbD 63 <;> rfl

/-- The value of an immediate is the signed immediate. -/
theorem toInt_immValue (imm : BitVec 64) : (immValue imm).toInt = imm.toInt :=
  BitVec.toInt_signExtend_of_le (by decide)

/-- The values of immediates are the signed 64-bit integers. -/
theorem exists_immValue_eq_iff (v : Value) :
    (∃ imm, immValue imm = v) ↔ -2 ^ 63 ≤ v.toInt ∧ v.toInt ≤ 2 ^ 63 - 1 := by
  constructor
  · rintro ⟨imm, rfl⟩
    rw [toInt_immValue]
    exact ⟨imm.le_toInt, Int.le_sub_one_of_lt imm.toInt_lt⟩
  · rintro ⟨hlo, hhi⟩
    refine ⟨BitVec.ofInt 64 v.toInt, BitVec.eq_of_toInt_eq ?_⟩
    rw [toInt_immValue]
    exact BitVec.toInt_ofInt_eq_self (by decide) hlo (Int.lt_of_le_sub_one hhi)

/-! ### What the commands leave -/

theorem wordOf_zero (j : WordIdx) : wordOf 0#256 j = 0x00000000#32 := BitVec.extractLsb'_zero

theorem exec_zero (rd : RegIdx) (s : State) : exec (.zero rd) s = .next (writeReg s rd 0#256) := rfl

theorem exec_fromint (rd : RegIdx) (imm : BitVec 64) (s : State) :
    exec (.fromint rd imm) s = .next (writeReg s rd (immValue imm)) := rfl

theorem exec_mov_self (rd : RegIdx) (s : State) : exec (.mov rd rd) s = .next s :=
  congrArg Host.Outcome.next (if_pos rfl)

theorem exec_mov_of_ne {rd ra : RegIdx} (h : rd ≠ ra) (s : State) :
    exec (.mov rd ra) s = .next (writeReg s rd (readReg s ra)) :=
  congrArg Host.Outcome.next (if_neg h)

/-- A copy leaves the source's value in the destination; it marks it written, or is the copy of a register to itself and
leaves the state as it was (R68). -/
theorem exec_mov_spec (rd ra : RegIdx) (s : State) :
    ∃ t, exec (.mov rd ra) s = .next t ∧ readReg t rd = readReg s ra ∧ SameRegsExcept [rd] s t ∧ SameOutputs s t ∧
      (rd = ra → t = s) ∧ (rd ≠ ra → t.written[rd.val] = true) := by
  by_cases h : rd = ra
  · subst h
    exact ⟨s, exec_mov_self rd s, rfl, SameRegsExcept.refl _ s, SameOutputs.refl s, fun _ => rfl, fun hne => absurd rfl hne⟩
  · obtain ⟨hval, hmark, hregs, houts⟩ := writesOnly_writeReg s rd (readReg s ra)
    exact ⟨_, exec_mov_of_ne h s, hval, hregs, houts, fun he => absurd he h, fun _ => hmark⟩

/-! ### The statements of 40_construct_move.md -/

/-- Settles O14: each command's frame is that of its one register write, and the words are those of the value written. -/
theorem constructionResults : Obligations.ConstructionResults := by
  intro rd ra imm s
  refine ⟨⟨_, exec_zero rd s, writesOnly_writeReg s rd 0#256, fun j => ?_⟩,
    ⟨_, immValue imm, exec_fromint rd imm s, writesOnly_writeReg s rd _, toInt_immValue imm,
      extractLsb'_immValue_low imm (by decide), extractLsb'_immValue_low imm (by decide),
      fun _ hj => wordOf_immValue_high imm hj⟩, ?_⟩
  · rw [readReg_writeReg_same, wordOf_zero]
  · obtain ⟨t, hexec, hval, hframe⟩ := exec_mov_spec rd ra s
    exact ⟨t, hexec, hval, fun j => by rw [hval], hframe⟩

/-- Settles O15: the law by the bits of the extended immediate, the image by its signed value. -/
theorem signExtensionLaw : Obligations.SignExtensionLaw := by
  refine ⟨fun rd imm s => ⟨_, exec_fromint rd imm s, ?_⟩, exists_immValue_eq_iff⟩
  rw [readReg_writeReg_same]
  exact ⟨toInt_immValue imm, extractLsb'_immValue_high imm (by decide) (by decide),
    (extractLsb'_immValue_low imm (by decide)).trans BitVec.extractLsb'_eq_self⟩

end Sys2Proof.Machine

/-! PROOFS. The adder family of 41_add_sub_neg_abs.md R80 to R87: the carry chain is addition modulo `2^256`, the sign
mask, the absolute value as Lean's own `BitVec.abs`, and what the four commands write. -/

namespace Sys2Proof.Machine

/-! ### The words of a value as the digits of a number (R80) -/

/-- The unsigned number a list of words stands for, the least significant first. -/
def wordsNat (ws : List Word) : Nat := ws.foldr (fun w n => w.toNat + 2 ^ 32 * n) 0

theorem wordsNat_cons (w : Word) (ws : List Word) : wordsNat (w :: ws) = w.toNat + 2 ^ 32 * wordsNat ws := rfl

theorem toNat_ofWords (ws : List Word) : (ofWords ws).toNat = wordsNat ws % 2 ^ 256 := ofWords_toNat ws

theorem wordsNat_lt (ws : List Word) : wordsNat ws < 2 ^ (32 * ws.length) := by
  induction ws with
  | nil => decide
  | cons w ws ih =>
    have hw := w.isLt
    rw [wordsNat_cons, List.length_cons, Nat.mul_succ, Nat.pow_add]
    omega

theorem length_toWords (v : Value) : (toWords v).length = 8 := by
  rw [toWords, List.length_map, List.length_finRange]

/-- The eight words of a value stand for its unsigned reading. -/
theorem wordsNat_toWords (v : Value) : wordsNat (toWords v) = v.toNat := by
  have hlt : wordsNat (toWords v) < 2 ^ 256 := by
    have h := wordsNat_lt (toWords v)
    rwa [length_toWords] at h
  rw [← Nat.mod_eq_of_lt hlt, ← toNat_ofWords, ofWords_toWords]

/-! ### The carry chain (R80, R81) -/

/-- The 64-bit sum of two words and the incoming carry. -/
def wordSum (a b : Word) (c : Bool) : BitVec 64 := a.setWidth 64 + b.setWidth 64 + (BitVec.ofBool c).setWidth 64

theorem addcWords_cons (a b : Word) (as bs : List Word) (c : Bool) :
    addcWords (a :: as) (b :: bs) c =
      (wordSum a b c).setWidth 32 :: addcWords as bs ((wordSum a b c).getLsbD 32) := rfl

/-- The sum is exact: its low 32 bits, with its bit 32 as the carry, make it up. -/
theorem wordSum_split (a b : Word) (c : Bool) :
    ((wordSum a b c).setWidth 32).toNat + 2 ^ 32 * ((wordSum a b c).getLsbD 32).toNat =
      a.toNat + b.toNat + c.toNat := by
  have ha := a.isLt
  have hb := b.isLt
  have hc := Bool.toNat_le c
  have hsum : (wordSum a b c).toNat = a.toNat + b.toNat + c.toNat := by
    simp only [wordSum, BitVec.toNat_add, BitVec.toNat_setWidth, BitVec.toNat_ofBool]
    omega
  rw [BitVec.toNat_setWidth, BitVec.getLsbD, Nat.toNat_testBit, hsum]
  omega

/-- The chain is exact up to the carry `d` out of its last word. -/
theorem wordsNat_addcWords (as bs : List Word) (c : Bool) (hlen : as.length = bs.length) :
    ∃ d : Nat, wordsNat (addcWords as bs c) + 2 ^ (32 * as.length) * d = wordsNat as + wordsNat bs + c.toNat := by
  induction as generalizing bs c with
  | nil =>
    obtain rfl : bs = [] := List.length_eq_zero_iff.mp hlen.symm
    exact ⟨c.toNat, by simp [addcWords, wordsNat]⟩
  | cons a as ih =>
    cases bs with
    | nil => cases hlen
    | cons b bs =>
      have hword := wordSum_split a b c
      obtain ⟨d, hd⟩ := ih bs ((wordSum a b c).getLsbD 32) (Nat.succ.inj hlen)
      refine ⟨d, ?_⟩
      rw [addcWords_cons, wordsNat_cons, wordsNat_cons, wordsNat_cons, List.length_cons, Nat.mul_succ, Nat.pow_add]
      linarith

/-- The carry out of word 7 is dropped: the chain adds modulo `2^256`. -/
theorem toNat_addc (a b : Value) (c0 : Bool) : (addc a b c0).toNat = (a.toNat + b.toNat + c0.toNat) % 2 ^ 256 := by
  obtain ⟨d, hd⟩ := wordsNat_addcWords (toWords a) (toWords b) c0 (by rw [length_toWords, length_toWords])
  rw [wordsNat_toWords, wordsNat_toWords, length_toWords] at hd
  rw [addc, toNat_ofWords, ← hd]
  exact (Nat.add_mul_mod_self_left _ _ _).symm

theorem addc_eq_add (a b : Value) (c0 : Bool) : addc a b c0 = a + b + BitVec.ofNat 256 c0.toNat := by
  apply BitVec.eq_of_toNat_eq
  simp [toNat_addc, BitVec.toNat_add]

/-- Settles O16: both readings of the operands wrap to the same sum of bit vectors. -/
theorem carryChainLaw : Obligations.CarryChainLaw := by
  intro a b c0
  have hc : wrap256 (c0.toNat : Int) = BitVec.ofNat 256 c0.toNat := BitVec.ofInt_natCast 256 _
  constructor
  · rw [wrap256_add, wrap256_add, wrap256_toNat, wrap256_toNat, hc, addc_eq_add]
  · rw [wrap256_add, wrap256_add, wrap256_toInt, wrap256_toInt, hc, addc_eq_add]

/-! ### The sign mask (R86) -/

theorem signMask_of_msb {a : Value} (h : a.msb = true) : signMask a = BitVec.allOnes 256 := by
  rw [signMask, h, BitVec.fill_true]

theorem signMask_of_not_msb {a : Value} (h : a.msb = false) : signMask a = 0#256 := by
  rw [signMask, h, BitVec.fill_false]

/-- The sign bit of a value is bit 31 of its word 7. -/
theorem msb_eq_wordOf_seven (a : Value) : a.msb = (wordOf a 7).getLsbD 31 := by
  simp [wordOf, BitVec.msb_eq_getLsbD_last]

/-- A word of the sign mask is all-ones or 0, by the sign. -/
theorem wordOf_signMask (a : Value) (j : WordIdx) :
    wordOf (signMask a) j = if a.msb then 0xFFFFFFFF#32 else 0x00000000#32 := by
  have hfill : wordOf (signMask a) j = BitVec.fill 32 a.msb := by
    ext i hi
    have hwidth : 32 * j.val + i < 256 := by omega
    simp [wordOf, signMask, hwidth]
  rw [hfill]
  cases a.msb <;> rfl

/-- Settles O19: the mask is a fill by the sign bit, which is bit 255 and bit 31 of word 7. -/
theorem signMaskLaw : Obligations.SignMaskLaw := by
  intro a
  refine ⟨fun k hk => ?_, fun j => ?_, ?_⟩
  · simp [signMask, hk, BitVec.msb_eq_getLsbD_last]
  · rw [← msb_eq_wordOf_seven, wordOf_signMask]
  · rw [signMask]
    cases a.msb <;> rfl

/-! ### The datapaths compute the result laws (R82 to R85) -/

theorem addPath_eq_addValue (a b : Value) : addPath a b = addValue a b := by
  rw [addPath, addc_eq_add, addValue_eq_add, Bool.toNat_false, BitVec.add_zero]

/-- Subtracting is adding the complement and 1. -/
theorem subPath_eq_subValue (a b : Value) : subPath a b = subValue a b := by
  rw [subPath, addc_eq_add, subValue_eq_sub, Bool.toNat_true, BitVec.add_assoc, ← BitVec.neg_eq_not_add,
    BitVec.sub_eq_add_neg]

theorem negPath_eq_negValue (a : Value) : negPath a = negValue a := by
  rw [negPath, addc_eq_add, negValue_eq_neg, Bool.toNat_true, BitVec.zero_add, ← BitVec.neg_eq_not_add]

/-- Adding the mask of a negative value takes 1 off, and the exclusive or complements: `~(a - 1) = -a`. -/
theorem absPath_eq_absValue (a : Value) : absPath a = absValue a := by
  rw [absPath, absValue, addc_eq_add, Bool.toNat_false, BitVec.add_zero]
  cases h : a.msb with
  | false => rw [signMask_of_not_msb h, BitVec.add_zero, BitVec.xor_zero, if_neg Bool.false_ne_true]
  | true =>
    rw [signMask_of_msb h, BitVec.xor_allOnes, ← BitVec.neg_one_eq_allOnes, ← BitVec.sub_eq_add_neg,
      BitVec.not_sub_one_eq_not_add_one, ← BitVec.neg_eq_not_add, if_pos rfl, negValue_eq_neg]

/-! ### What the commands leave -/

theorem exec_add (rd ra rb : RegIdx) (s : State) :
    exec (.add rd ra rb) s = .next (writeReg s rd (addValue (readReg s ra) (readReg s rb))) := rfl

theorem exec_sub (rd ra rb : RegIdx) (s : State) :
    exec (.sub rd ra rb) s = .next (writeReg s rd (subValue (readReg s ra) (readReg s rb))) := rfl

theorem exec_neg (rd ra : RegIdx) (s : State) :
    exec (.neg rd ra) s = .next (writeReg s rd (negValue (readReg s ra))) := rfl

theorem exec_abs (rd ra : RegIdx) (s : State) :
    exec (.abs rd ra) s = .next (writeReg s rd (absValue (readReg s ra))) := rfl

/-- Settles O17: the frame is that of one register write, and the datapaths agree with the values written. -/
theorem addSubResults : Obligations.AddSubResults := by
  intro rd ra rb s
  refine ⟨⟨_, exec_add rd ra rb s, writesOnly_writeReg s rd _, ?_⟩,
    ⟨_, exec_sub rd ra rb s, writesOnly_writeReg s rd _, ?_⟩⟩
  · rw [readReg_writeReg_same, ← addPath_eq_addValue, addPath]
  · rw [readReg_writeReg_same, ← subPath_eq_subValue, subPath]

/-- Settles O18: the frame is that of one register write, and the datapaths agree with the values written. -/
theorem negAbsResults : Obligations.NegAbsResults := by
  intro rd ra s
  have hzero : wrap256 0 = 0#256 := rfl
  refine ⟨⟨_, exec_neg rd ra s, writesOnly_writeReg s rd _, ?_⟩,
    ⟨_, exec_abs rd ra s, writesOnly_writeReg s rd _, ?_⟩⟩
  · rw [readReg_writeReg_same, ← negPath_eq_negValue, negPath, hzero]
  · rw [readReg_writeReg_same, ← absPath_eq_absValue, absPath]

/-! ### The laws of the family (R87) -/

theorem minValue_eq_intMin : minValue = BitVec.intMin 256 := by decide

theorem absValue_eq_abs (a : Value) : absValue a = a.abs := by
  rw [absValue, negValue_eq_neg, BitVec.abs_eq]

/-- Negation negates the signed reading, except that of MIN, which is its own negation. -/
theorem toInt_neg_eq_iff (a : Value) : (-a).toInt = -a.toInt ↔ a ≠ minValue := by
  rw [minValue_eq_intMin]
  refine ⟨?_, BitVec.toInt_neg_of_ne_intMin⟩
  rintro h rfl
  exact absurd h (by decide)

/-- The absolute value is non-negative except that of MIN, which is MIN. -/
theorem toInt_abs_nonneg_iff (a : Value) : 0 ≤ a.abs.toInt ↔ a ≠ minValue := by
  rw [minValue_eq_intMin, BitVec.toInt_abs_eq_natAbs]
  split
  case isTrue h => exact iff_of_false (by decide) (not_not_intro h)
  case isFalse h => exact iff_of_true (Int.natCast_nonneg _) h

theorem abs_abs_eq (a : Value) : a.abs.abs = a.abs := by
  by_cases h : a = BitVec.intMin 256
  · rw [h, BitVec.abs_intMin, BitVec.abs_intMin]
  · have hmsb : a.abs.msb = false := by simp [BitVec.msb_abs, h]
    rw [BitVec.abs_eq a.abs, hmsb, if_neg Bool.false_ne_true]

/-- Read as unsigned, the absolute value of MIN too is the magnitude. -/
theorem toNat_abs_eq_natAbs (a : Value) : a.abs.toNat = a.toInt.natAbs := by
  have hlt := a.isLt
  rw [BitVec.toNat_abs, BitVec.toInt_eq_msb_cond]
  cases a.msb with
  | false => rw [if_neg Bool.false_ne_true, if_neg Bool.false_ne_true, Int.natAbs_natCast]
  | true =>
    rw [if_pos rfl, if_pos rfl]
    omega

/-- Settles O20: the result laws are the operations of the ring of bit vectors and its absolute value. -/
theorem adderFamilyLaws : Obligations.AdderFamilyLaws := by
  intro a b c
  simp only [addValue_eq_add, subValue_eq_sub, negValue_eq_neg, absValue_eq_abs]
  exact ⟨BitVec.add_zero a, BitVec.add_right_neg a, BitVec.sub_eq_add_neg a b, abs_abs_eq a, BitVec.add_comm a b,
    BitVec.add_assoc a b c, BitVec.neg_neg, toInt_neg_eq_iff a, toInt_abs_nonneg_iff a, toNat_abs_eq_natAbs a⟩

end Sys2Proof.Machine

/-! PROOFS. The one-bit shifters of 42_shift.md R100 to R102: the result laws bit by bit, the word-by-word datapaths, and the
statements of that file. -/

namespace Sys2Proof.Machine

/-! ### The results bit by bit (R100, R101) -/

theorem shl1Value_eq_shiftConcat (a : Value) (c : Bool) : shl1Value a c = a.shiftConcat c := by
  apply BitVec.eq_of_toNat_eq
  rw [shl1Value_toNat, BitVec.toNat_shiftConcat, Nat.shiftLeft_eq, pow_one, Nat.mul_comm]

theorem getLsbD_shl1Value_zero (a : Value) (c : Bool) : (shl1Value a c).getLsbD 0 = c := by
  simp [shl1Value_eq_shiftConcat]

theorem getLsbD_shl1Value_succ (a : Value) (c : Bool) {k : Nat} (hk : k < 255) :
    (shl1Value a c).getLsbD (k + 1) = a.getLsbD k := by
  have hlt : k + 1 < 256 := by omega
  rw [shl1Value_eq_shiftConcat, BitVec.getLsbD_shiftConcat, decide_eq_true hlt, Bool.true_and, if_neg k.succ_ne_zero,
    Nat.add_sub_cancel]

theorem getLsbD_shr1Value_of_lt (a : Value) (c : Bool) {k : Nat} (hk : k < 255) :
    (shr1Value a c).getLsbD k = a.getLsbD (k + 1) := by
  rw [shr1Value, BitVec.getLsbD_cons, if_neg hk.ne, BitVec.getLsbD_extractLsb', decide_eq_true hk, Bool.true_and,
    Nat.add_comm]

theorem getLsbD_shr1Value_last (a : Value) (c : Bool) : (shr1Value a c).getLsbD 255 = (a.getLsbD 255 || c) := by
  rw [shr1Value, BitVec.getLsbD_cons, if_pos rfl, BitVec.msb_eq_getLsbD_last]

/-- With no bit coming in the sign is copied: the arithmetic shift, which rounds the half down. -/
theorem shr1Value_false (a : Value) : shr1Value a false = wrap256 (a.toInt / 2) := by
  have hshift : shr1Value a false = a.sshiftRight 1 := by
    ext k hk
    rw [shr1Value, BitVec.getElem_cons, BitVec.getElem_sshiftRight]
    by_cases h : k = 255
    · simp [h]
    · have hlt : 1 + k < 256 := by omega
      simp [h, hlt, BitVec.getLsbD_eq_getElem]
  rw [hshift, ← wrap256_toInt (a.sshiftRight 1), BitVec.toInt_sshiftRight, Int.shiftRight_eq_div_pow]
  rfl

/-! ### The left shift over words (R100) -/

/-- A word shifted left with a bit coming in is the word added to itself with that carry, and the bit that falls out is the
carry out. -/
theorem wordSum_self (w : Word) (c : Bool) :
    (wordSum w w c).setWidth 32 = (w <<< 1) ||| (BitVec.ofBool c).setWidth 32 ∧
      (wordSum w w c).getLsbD 32 = w.getLsbD 31 := by
  have hor : (w <<< 1) ||| (BitVec.ofBool c).setWidth 32 = w.shiftConcat c := by
    ext k hk
    cases k <;> simp [BitVec.getElem_shiftConcat]
  have hsplit : 2 ^ 32 * (w.getLsbD 31).toNat + (w.shiftConcat c).toNat = 2 * w.toNat + c.toNat := by
    have hw := w.isLt
    have hc := Bool.toNat_le c
    rw [BitVec.toNat_shiftConcat, Nat.shiftLeft_eq, BitVec.getLsbD, Nat.toNat_testBit]
    omega
  have hsum := wordSum_split w w c
  have hlow := ((wordSum w w c).setWidth 32).isLt
  have hlow' := (w.shiftConcat c).isLt
  rw [hor]
  constructor
  · apply BitVec.eq_of_toNat_eq
    omega
  · have hcarry : ((wordSum w w c).getLsbD 32).toNat = (w.getLsbD 31).toNat := by omega
    rw [← Bool.ofNat_toNat (w.getLsbD 31), ← hcarry, Bool.ofNat_toNat]

/-- The left shift is the carry chain of a value with itself. -/
theorem shlWords_eq_addcWords (ws : List Word) (c : Bool) : shlWords ws c = addcWords ws ws c := by
  induction ws generalizing c with
  | nil => rfl
  | cons w ws ih =>
    obtain ⟨hword, hcarry⟩ := wordSum_self w c
    rw [shlWords, addcWords_cons, hword, hcarry, ih]

theorem shl1Path_eq_shl1Value (a : Value) (c : Bool) : shl1Path a c = shl1Value a c := by
  rw [shl1Path, shlWords_eq_addcWords, ← addc, addc_eq_add, shl1Value_eq]

/-! ### The right shift over words (R101) -/

theorem getElem_wordOf (a : Value) (j : WordIdx) {i : Nat} (hi : i < 32) :
    (wordOf a j)[i] = a.getLsbD (32 * j.val + i) := by
  rw [wordOf, BitVec.getElem_extractLsb']

/-- A word below the top takes its bit 31 from bit 0 of the word above it. -/
theorem cons_wordOf_eq (a : Value) (c : Bool) {j k : WordIdx} (h : j.val + 1 = k.val) :
    BitVec.cons ((wordOf a k).getLsbD 0) ((wordOf a j).extractLsb' 1 31) = wordOf (shr1Value a c) j := by
  ext i hi
  have hlt : 32 * j.val + i < 255 := by omega
  rw [BitVec.getElem_cons, getElem_wordOf _ _ hi, getLsbD_shr1Value_of_lt a c hlt]
  split
  case isTrue htop =>
    have hpos : 32 * k.val + 0 = 32 * j.val + i + 1 := by omega
    rw [BitVec.getLsbD_eq_getElem (by decide), getElem_wordOf, hpos]
  case isFalse htop =>
    have hin : 1 + i < 32 := by omega
    rw [BitVec.getElem_extractLsb', BitVec.getLsbD_eq_getElem hin, getElem_wordOf, Nat.add_comm 1 i, Nat.add_assoc]

/-- The top word copies its sign, and the incoming bit is OR-ed into bit 31. -/
theorem sshiftRight_wordOf_seven (a : Value) (c : Bool) :
    (wordOf a 7).sshiftRight 1 ||| ((BitVec.ofBool c).setWidth 32 <<< 31) = wordOf (shr1Value a c) 7 := by
  ext i hi
  rw [BitVec.getElem_or, BitVec.getElem_sshiftRight, getElem_wordOf _ _ hi,
    BitVec.msb_eq_getLsbD_last, ← msb_eq_wordOf_seven, BitVec.msb_eq_getLsbD_last]
  by_cases htop : i = 31
  · subst htop
    have hlast : (shr1Value a c).getLsbD (32 * (7 : WordIdx).val + 31) = (a.getLsbD 255 || c) :=
      getLsbD_shr1Value_last a c
    rw [hlast]
    simp
  · have hlt : i < 31 := by omega
    have hin : 1 + i < 32 := by omega
    rw [getLsbD_shr1Value_of_lt a c (by omega), dif_pos hin, getElem_wordOf, Nat.add_comm 1 i, Nat.add_assoc]
    simp [hlt]

theorem toWords_eq (v : Value) :
    toWords v = [wordOf v 0, wordOf v 1, wordOf v 2, wordOf v 3, wordOf v 4, wordOf v 5, wordOf v 6, wordOf v 7] := rfl

/-- The datapath delivers the words of the shifted value, which a value is made of. -/
theorem shr1Path_eq_shr1Value (a : Value) (c : Bool) : shr1Path a c = shr1Value a c := by
  rw [← ofWords_toWords (shr1Value a c), shr1Path, toWords_eq, toWords_eq]
  simp (disch := decide) only [List.reverse_cons, List.reverse_nil, List.nil_append, List.cons_append, shrWords,
    cons_wordOf_eq a c, sshiftRight_wordOf_seven]

/-! ### What the commands leave -/

theorem exec_shl1 (rd ra : RegIdx) (c : Bool) (s : State) :
    exec (.shl1 rd ra c) s = .next (writeReg s rd (shl1Value (readReg s ra) c)) := rfl

theorem exec_shr1 (rd ra : RegIdx) (c : Bool) (s : State) :
    exec (.shr1 rd ra c) s = .next (writeReg s rd (shr1Value (readReg s ra) c)) := rfl

/-- Settles O21: one register write of the shifted value, whose bits and datapath are those above. -/
theorem shiftLeftResult : Obligations.ShiftLeftResult := by
  intro rd ra cin s
  refine ⟨_, _, exec_shl1 rd ra cin s, writesOnly_writeReg s rd _, rfl, getLsbD_shl1Value_zero _ _, ?_,
    (shl1Path_eq_shl1Value _ _).symm⟩
  intro k h1 h255
  obtain ⟨j, rfl⟩ := Nat.exists_eq_add_of_le' h1
  exact getLsbD_shl1Value_succ _ _ h255

/-- Settles O22: one register write of the shifted value, whose bits and datapath are those above. -/
theorem shiftRightResult : Obligations.ShiftRightResult := by
  intro rd ra cin s
  refine ⟨_, _, exec_shr1 rd ra cin s, writesOnly_writeReg s rd _,
    fun k hk => getLsbD_shr1Value_of_lt _ _ (Nat.lt_succ_of_le hk), getLsbD_shr1Value_last _ _,
    (shr1Path_eq_shr1Value _ _).symm, ?_⟩
  rintro rfl
  exact shr1Value_false _

/-! ### The laws of the shifters (R102) -/

/-- Left then right gives back every bit but the top one. -/
theorem extractLsb'_shr1Value_shl1Value (a : Value) (c : Bool) :
    (shr1Value (shl1Value a c) false).extractLsb' 0 255 = a.extractLsb' 0 255 := by
  ext k hk
  rw [BitVec.getElem_extractLsb', BitVec.getElem_extractLsb', Nat.zero_add, getLsbD_shr1Value_of_lt _ _ hk,
    getLsbD_shl1Value_succ a c hk]

/-- The top bit after left then right is the copied sign of the left shift. -/
theorem getLsbD_last_shr1Value_shl1Value (a : Value) (c : Bool) :
    (shr1Value (shl1Value a c) false).getLsbD 255 = a.getLsbD 254 := by
  rw [getLsbD_shr1Value_last, Bool.or_false, getLsbD_shl1Value_succ a c (by decide)]

/-- Right then left restores the value once the bit that fell out comes in again. -/
theorem shl1Value_shr1Value (a : Value) : shl1Value (shr1Value a false) (a.getLsbD 0) = a := by
  apply BitVec.eq_of_getLsbD_eq
  intro k hk
  cases k with
  | zero => exact getLsbD_shl1Value_zero _ _
  | succ k =>
    have hlt : k < 255 := Nat.lt_of_succ_lt_succ hk
    rw [getLsbD_shl1Value_succ _ _ hlt, getLsbD_shr1Value_of_lt a false hlt]

/-- The top bit of the low half carried into the high half: the pair is doubled modulo `2^512`. -/
theorem shl1Value_pair (hi lo : Value) (c : Bool) :
    (shl1Value hi lo.msb).toNat * 2 ^ 256 + (shl1Value lo c).toNat =
      (2 * (hi.toNat * 2 ^ 256 + lo.toNat) + c.toNat) % 2 ^ 512 := by
  have hlo := lo.isLt
  have hc := Bool.toNat_le c
  have hsplit : 2 * lo.toNat + c.toNat = 2 ^ 256 * lo.msb.toNat + (shl1Value lo c).toNat := by
    rw [shl1Value_toNat, BitVec.msb_eq_getLsbD_last, BitVec.getLsbD, Nat.toNat_testBit]
    omega
  have hpair : 2 * (hi.toNat * 2 ^ 256 + lo.toNat) + c.toNat =
      (shl1Value lo c).toNat + 2 ^ 256 * (2 * hi.toNat + lo.msb.toNat) := by
    linarith
  rw [hpair, show 512 = 256 + 256 from rfl, Nat.pow_add, Nat.mod_mul, Nat.add_mul_mod_self_left,
    Nat.mod_eq_of_lt (shl1Value lo c).isLt, Nat.add_mul_div_left _ _ (by decide),
    Nat.div_eq_of_lt (shl1Value lo c).isLt, Nat.zero_add, ← shl1Value_toNat]
  linarith

/-- Settles O23: the laws of one value bit by bit, the law of the pair on numbers. -/
theorem shifterLaws : Obligations.ShifterLaws := by
  refine ⟨fun a c => ⟨extractLsb'_shr1Value_shl1Value a c, getLsbD_last_shr1Value_shl1Value a c,
    shl1Value_shr1Value a, ?_, shr1Value_false a⟩, shl1Value_pair⟩
  rw [shl1Value_eq, addValue_eq_add, Bool.toNat_false, BitVec.add_zero]

end Sys2Proof.Machine

/-! PROOFS. The multiplier of 43_multiply.md R110 to R113: what MUL writes, the partial products as the product of two sums
of placed words, and the sign rule with its bound. -/

namespace Sys2Proof.Machine

/-! ### What the command leaves (R110) -/

theorem exec_mul (rd ra rb : RegIdx) (s : State) :
    exec (.mul rd ra rb) s = .next (writeReg s rd (mulValue (readReg s ra) (readReg s rb))) := rfl

/-- The unsigned readings give the same low 256 bits as the signed ones. -/
theorem wrap256_toNat_mul_toNat (a b : Value) : wrap256 (a.toNat * b.toNat) = a * b := by
  rw [wrap256_mul, wrap256_toNat, wrap256_toNat]

/-- Settles O24: the frame is that of one register write, and both readings of the operands wrap to the same product. -/
theorem multiplyResult : Obligations.MultiplyResult := by
  intro rd ra rb s
  refine ⟨_, exec_mul rd ra rb s, writesOnly_writeReg s rd _, ?_⟩
  rw [readReg_writeReg_same, mulValue_eq_mul, wrap256_toNat_mul_toNat]

/-! ### A value as the sum of its placed words (R112) -/

/-- What word `i` contributes to a value: its unsigned reading, moved up to word position `i`. -/
def placedWord (v : Value) (i : WordIdx) : Value := wrap256 ((wordOf v i).toNat * 2 ^ (32 * i.val))

theorem placedWord_zero (v : Value) : placedWord v 0 = wrap256 (wordOf v 0).toNat := by
  simp [placedWord]

/-- A value is its eight placed words added up. -/
theorem sum_placedWord (v : Value) : ∑ i, placedWord v i = v := by
  have hwords : ∑ i, placedWord v i = wrap256 (wordsNat (toWords v) : Nat) := by
    simp only [toWords_eq, wordsNat_cons, Fin.sum_univ_eight, placedWord, ← wrap256_add]
    congr 1
    push_cast [wordsNat, List.foldr_nil, Fin.coe_ofNat_eq_mod]
    ring
  rw [hwords, wordsNat_toWords, wrap256_toNat]

/-- The partial product of two words, each at its place. -/
def partialProduct (a b : Value) (p : WordIdx × WordIdx) : Value := placedWord a p.1 * placedWord b p.2

/-- A partial product is the product of the words, moved up by both positions. -/
theorem partialProduct_eq_wrap256 (a b : Value) (p : WordIdx × WordIdx) :
    partialProduct a b p =
      wrap256 (((wordOf a p.1).toNat * (wordOf b p.2).toNat * 2 ^ (32 * (p.1.val + p.2.val)) : Nat) : Int) := by
  rw [partialProduct, placedWord, placedWord, ← wrap256_mul, mul_mul_mul_comm, ← pow_add, ← Nat.mul_add]
  norm_cast

/-- A partial product at word position 8 or above is a multiple of `2^256`, so it is discarded. -/
theorem partialProduct_eq_zero (a b : Value) {p : WordIdx × WordIdx} (h : 8 ≤ p.1.val + p.2.val) :
    partialProduct a b p = 0 := by
  have hdvd : 2 ^ 256 ∣ 2 ^ (32 * (p.1.val + p.2.val)) := pow_dvd_pow 2 (by omega)
  rw [partialProduct_eq_wrap256, ← wrap256_toInt 0, wrap256_eq_iff]
  exact Int.emod_eq_zero_of_dvd (Int.natCast_dvd_natCast.2 (hdvd.mul_left _))

/-- The product of two values is the sum of all 64 partial products. -/
theorem sum_partialProduct (a b : Value) : ∑ p, partialProduct a b p = a * b := by
  simp only [partialProduct, Fintype.sum_prod_type, ← Finset.sum_mul_sum, sum_placedWord]

/-- At word position 7 the signed and the unsigned reading of a word wrap alike: they differ by a multiple of `2^32`. -/
theorem wrap256_toInt_wordOf_seven (v : Value) : wrap256 ((wordOf v 7).toInt * 2 ^ (32 * 7)) = placedWord v 7 := by
  have h7 : (7 : WordIdx).val = 7 := rfl
  rw [placedWord, wrap256_eq_iff, BitVec.toInt_eq_toNat_cond, h7]
  split <;> omega

/-! ### The datapath (R111, R112) -/

/-- All the index pairs of the datapath: those of the unsigned words, then the two cross terms with a top word. -/
def keptPairs : List (WordIdx × WordIdx) := productPairs ++ [(7, 0), (0, 7)]

/-- The pairs the datapath leaves out do not land inside the value. -/
theorem mem_keptPairs_or_le : ∀ i j : WordIdx, (i, j) ∈ keptPairs ∨ 8 ≤ i.val + j.val := by
  decide

theorem sum_keptPairs (a b : Value) : (keptPairs.map (partialProduct a b)).sum = a * b := by
  have hnodup : keptPairs.Nodup := by decide
  rw [← sum_partialProduct, ← List.sum_toFinset _ hnodup]
  refine Finset.sum_subset (Finset.subset_univ _) fun p _ hp => partialProduct_eq_zero a b ?_
  exact (mem_keptPairs_or_le p.1 p.2).resolve_left (mt List.mem_toFinset.2 hp)

theorem mulMagnitudes_eq_mul (ma mb : Value) : mulMagnitudes ma mb = ma * mb := by
  have hleft : wrap256 ((wordOf ma 7).toInt * ((wordOf mb 0).toNat : Int) * 2 ^ (32 * 7)) =
      partialProduct ma mb (7, 0) := by
    rw [mul_right_comm, wrap256_mul, wrap256_toInt_wordOf_seven, ← placedWord_zero, partialProduct]
  have hright : wrap256 (((wordOf ma 0).toNat : Int) * (wordOf mb 7).toInt * 2 ^ (32 * 7)) =
      partialProduct ma mb (0, 7) := by
    rw [mul_assoc, wrap256_mul, wrap256_toInt_wordOf_seven, ← placedWord_zero, partialProduct]
  simp only [mulMagnitudes, hleft, hright, ← partialProduct_eq_wrap256, addValue_eq_add]
  rw [← sum_keptPairs, keptPairs, List.sum_eq_foldl, List.foldl_map, List.foldl_append]
  rfl

/-- The product of the magnitudes is the product up to sign, negated where the signs differ. -/
theorem absValue_mul_absValue (a b : Value) :
    absValue a * absValue b = if (a.msb ^^ b.msb) then -(a * b) else a * b := by
  simp only [absValue, negValue_eq_neg]
  cases a.msb <;> cases b.msb
  · rfl
  · exact BitVec.mul_neg a b
  · exact BitVec.neg_mul a b
  · exact BitVec.neg_mul_neg a b

theorem mulPath_eq_mulValue (a b : Value) : mulPath a b = mulValue a b := by
  rw [mulPath, mulMagnitudes_eq_mul, absValue_mul_absValue, mulValue_eq_mul, negValue_eq_neg]
  split
  · exact BitVec.neg_neg
  · rfl

/-- Settles O25: the kept partial products add up to the product of the magnitudes, and the negation restores its sign. -/
theorem multiplierDatapathAgrees : Obligations.MultiplierDatapathAgrees := by
  intro a b
  rw [mulMagnitudes_eq_mul, wrap256_toNat_mul_toNat, mulPath_eq_mulValue, mulValue]
  exact ⟨rfl, rfl⟩

/-! ### The sign rule (R113) -/

theorem toInt_mulValue_of_lt {a b : Value} (h : a.toInt.natAbs * b.toInt.natAbs < 2 ^ 255) :
    (mulValue a b).toInt = a.toInt * b.toInt := by
  rw [← Int.natAbs_mul] at h
  exact BitVec.toInt_ofInt_eq_self (by decide) (by omega) (by omega)

/-- A product of non-zero integers is negative exactly where the signs differ. -/
theorem decide_mul_neg {x y : Int} (hx : x ≠ 0) (hy : y ≠ 0) :
    decide (x * y < 0) = (decide (x < 0) ^^ decide (y < 0)) := by
  rw [Bool.eq_iff_iff, Bool.xor_iff_ne, ne_eq, decide_eq_decide, decide_eq_true_eq, mul_neg_iff]
  omega

/-- Where the product does not wrap, its sign is the exclusive or of the signs. -/
theorem msb_mulValue_of_lt {a b : Value} (h : a.toInt.natAbs * b.toInt.natAbs < 2 ^ 255) (ha : a ≠ 0#256)
    (hb : b ≠ 0#256) : (mulValue a b).msb = (a.msb ^^ b.msb) := by
  rw [BitVec.msb_eq_toInt, BitVec.msb_eq_toInt, BitVec.msb_eq_toInt, toInt_mulValue_of_lt h,
    decide_mul_neg (BitVec.toInt_ne.2 ha) (BitVec.toInt_ne.2 hb)]

/-- Operands of differing signs do not have a positive product. -/
theorem toInt_mul_nonpos {a b : Value} (h : a.msb ≠ b.msb) : a.toInt * b.toInt ≤ 0 := by
  rw [BitVec.msb_eq_toInt, BitVec.msb_eq_toInt, ne_eq, decide_eq_decide] at h
  rw [mul_nonpos_iff]
  omega

/-- Settles O26: below the bound nothing wraps; at the bound with differing signs the product is `-2^255`. -/
theorem multiplySignRule : Obligations.MultiplySignRule := by
  intro a b
  refine ⟨fun h => ⟨toInt_mulValue_of_lt h, msb_mulValue_of_lt h⟩, fun h hsign => ?_, wrap256_toInt_emod _⟩
  have hprod : a.toInt * b.toInt = -2 ^ 255 := by
    have hle := toInt_mul_nonpos hsign
    rw [← Int.natAbs_mul] at h
    omega
  rw [mulValue, hprod]
  decide

end Sys2Proof.Machine

/-! PROOFS. The divider of 44_divide.md R120 to R128: the restoring core as one equation on the register pair, the sign
wrapper as Lean's own `BitVec.sdiv` and `BitVec.srem`, and what the three commands write. -/

namespace Sys2Proof.Machine

/-! ### The restoring core (R120, R121) -/

/-- The remainder and the quotient register read as one number, the remainder the high half. -/
def pairNat (qr : Value × Value) : Nat := 2 ^ 256 * qr.2.toNat + qr.1.toNat

/-- The shift takes the top bit of the quotient register out of it. -/
theorem two_mul_toNat_split (q : Value) : 2 * q.toNat = 2 ^ 256 * q.msb.toNat + 2 * q.toNat % 2 ^ 256 := by
  have hq := q.isLt
  rw [BitVec.msb_eq_getLsbD_last, BitVec.getLsbD, Nat.toNat_testBit]
  omega

/-- A step keeps the remainder below the divisor. It doubles the pair, takes the divisor off the high half when the new
quotient bit is 1, and adds that bit at the bottom. -/
theorem udivStep_pairNat {d : Value} {qr : Value × Value} (hd : d.toNat ≤ 2 ^ 255) (hr : qr.2.toNat < d.toNat) :
    (udivStep d qr).2.toNat < d.toNat ∧
      ∃ bit < 2, pairNat (udivStep d qr) + 2 ^ 256 * (d.toNat * bit) = 2 * pairNat qr + bit := by
  obtain ⟨q, r⟩ := qr
  have hmsb := two_mul_toNat_split q
  have hm := Bool.toNat_le q.msb
  obtain ⟨hq', hr'⟩ := udivStep_spec (q := q) hd hr
  simp only [pairNat, hq', hr'] at hr ⊢
  by_cases hfit : d.toNat ≤ 2 * r.toNat + q.msb.toNat
  · rw [if_pos hfit, if_pos hfit]
    exact ⟨by omega, 1, by decide, by omega⟩
  · rw [if_neg hfit, if_neg hfit]
    exact ⟨by omega, 0, by decide, by omega⟩

/-- After `k` steps the quotient bits found so far make up a number `b`: the pair has moved up by `k` places, `b` times the
divisor has been taken off the high half, and `b` has come in at the bottom. -/
theorem udivLoop_pairNat {d : Value} (hd : d.toNat ≤ 2 ^ 255) (k : Nat) (qr : Value × Value) (hr : qr.2.toNat < d.toNat) :
    (udivLoop d k qr).2.toNat < d.toNat ∧
      ∃ b < 2 ^ k, pairNat (udivLoop d k qr) + 2 ^ 256 * (d.toNat * b) = 2 ^ k * pairNat qr + b := by
  induction k generalizing qr with
  | zero => exact ⟨hr, 0, by decide, by simp [udivLoop]⟩
  | succ k ih =>
    obtain ⟨hlt, bit, hbit, hstep⟩ := udivStep_pairNat hd hr
    obtain ⟨hlt', b, hb, hloop⟩ := ih (udivStep d qr) hlt
    refine ⟨hlt', 2 ^ k * bit + b, ?_, ?_⟩
    · have hle := Nat.mul_le_mul_left (2 ^ k) (Nat.le_of_lt_succ hbit)
      omega
    · rw [udivLoop, pow_succ]
      linear_combination hloop + 2 ^ k * hstep

/-- The quotient register ends up holding the quotient bits alone, so the pair's equation is the division with remainder. -/
theorem udivrem_toNat {n d : Value} (hpos : 1 ≤ d.toNat) (hd : d.toNat ≤ 2 ^ 255) :
    (udivrem n d).1.toNat = n.toNat / d.toNat ∧ (udivrem n d).2.toNat = n.toNat % d.toNat := by
  obtain ⟨hlt, b, hb, hpair⟩ := udivLoop_pairNat hd 256 (n, 0#256) hpos
  have hq := (udivLoop d 256 (n, 0#256)).1.isLt
  have hbits : (udivrem n d).1.toNat = b := by
    simp only [pairNat, udivrem] at hpair ⊢
    omega
  have hdiv : (udivrem n d).2.toNat + d.toNat * b = n.toNat := by
    rw [← hbits] at hpair ⊢
    simp only [pairNat, udivrem, BitVec.toNat_ofNat] at hpair ⊢
    omega
  obtain ⟨hquot, hrem⟩ := (Nat.div_mod_unique hpos).2 ⟨hdiv, hlt⟩
  exact ⟨hbits.trans hquot.symm, hrem.symm⟩

/-- Settles O27: the equation of the register pair over all 256 steps. -/
theorem restoringCoreLaw : Obligations.RestoringCoreLaw := fun _ _ => udivrem_toNat

/-! ### The sign wrapper (R122, R123) -/

theorem udivrem_eq {n d : Value} (hpos : 1 ≤ d.toNat) (hd : d.toNat ≤ 2 ^ 255) : udivrem n d = (n / d, n % d) := by
  obtain ⟨hquot, hrem⟩ := udivrem_toNat (n := n) hpos hd
  exact Prod.ext (BitVec.eq_of_toNat_eq hquot) (BitVec.eq_of_toNat_eq hrem)

theorem one_le_toNat_absValue {b : Value} (hb : b ≠ 0#256) : 1 ≤ (absValue b).toNat := by
  rw [absValue_eq_abs, toNat_abs_eq_natAbs]
  exact Int.natAbs_pos.2 (BitVec.toInt_ne.2 hb)

/-- The wrapper on the quotient and the remainder of the magnitudes is signed division of bit vectors. -/
theorem sdivrem_eq_sdiv_srem (a : Value) {b : Value} (hb : b ≠ 0#256) : sdivrem a b = (a.sdiv b, a.srem b) := by
  rw [sdivrem, udivrem_eq (one_le_toNat_absValue hb) (magnitude_le b), BitVec.sdiv_eq, BitVec.srem_eq]
  simp only [absValue, negValue_eq_neg]
  cases a.msb <;> cases b.msb <;> rfl

theorem divValue_eq_sdiv (a : Value) {b : Value} (hb : b ≠ 0#256) : divValue a b = a.sdiv b := by
  apply BitVec.eq_of_toInt_eq
  rw [divValue_of_ne hb, wrap256, BitVec.toInt_ofInt, BitVec.toInt_sdiv, truncQuot]

theorem remValue_eq_srem (a : Value) {b : Value} (hb : b ≠ 0#256) : remValue a b = a.srem b := by
  rw [remValue_of_ne hb, truncQuot, ← Int.tmod_def, ← BitVec.toInt_srem, wrap256_toInt]

/-- Away from zero divisors the datapath computes the result laws of DIV and REM. -/
theorem sdivrem_eq_divValue_remValue (a : Value) {b : Value} (hb : b ≠ 0#256) :
    sdivrem a b = (divValue a b, remValue a b) := by
  rw [sdivrem_eq_sdiv_srem a hb, divValue_eq_sdiv a hb, remValue_eq_srem a hb]

/-! ### The remainder and the quotient as integers (R123) -/

theorem toInt_remValue (a : Value) {b : Value} (hb : b ≠ 0#256) : (remValue a b).toInt = a.toInt.tmod b.toInt := by
  rw [remValue_eq_srem a hb, BitVec.toInt_srem]

theorem natAbs_toInt_remValue_lt (a : Value) {b : Value} (hb : b ≠ 0#256) :
    (remValue a b).toInt.natAbs < b.toInt.natAbs := by
  rw [toInt_remValue a hb, Int.natAbs_tmod]
  exact Nat.mod_lt _ (Int.natAbs_pos.2 (BitVec.toInt_ne.2 hb))

/-- A remainder that is not zero has the sign of the dividend. -/
theorem remValue_eq_zero_or_msb_eq (a : Value) {b : Value} (hb : b ≠ 0#256) :
    remValue a b = 0#256 ∨ (remValue a b).msb = a.msb := by
  have hsign := Int.sign_tmod a.toInt b.toInt
  rw [← toInt_remValue a hb] at hsign
  split at hsign
  · exact .inl (BitVec.toInt_inj.1 (Int.sign_eq_zero_iff_zero.1 hsign))
  · right
    rw [BitVec.msb_eq_toInt, BitVec.msb_eq_toInt, decide_eq_decide, ← Int.sign_neg_iff, hsign, Int.sign_neg_iff]

/-- The truncated quotient does not wrap, except that of MIN by -1. -/
theorem toInt_divValue {a b : Value} (hb : b ≠ 0#256) (h : ¬ (a = minValue ∧ b = wrap256 (-1))) :
    (divValue a b).toInt = a.toInt.tdiv b.toInt := by
  have hmin : a ≠ BitVec.intMin 256 ∨ b ≠ -1#256 := not_and_or.1 h
  rw [divValue_eq_sdiv a hb, BitVec.toInt_sdiv_of_ne_or_ne a b hmin]

/-- A truncated quotient that is not zero is negative exactly where the signs differ. -/
theorem decide_tdiv_neg {x y : Int} (h : x.tdiv y ≠ 0) :
    decide (x.tdiv y < 0) = (decide (x < 0) ^^ decide (y < 0)) := by
  have hx : x ≠ 0 := by
    rintro rfl
    exact h (Int.zero_tdiv y)
  have hy : y ≠ 0 := by
    rintro rfl
    exact h (Int.tdiv_zero x)
  have hsign : (x.tdiv y).sign = (x * y).sign := by
    have hcases := Int.sign_tdiv x y
    split at hcases
    · exact absurd (Int.sign_eq_zero_iff_zero.1 hcases) h
    · rw [hcases, Int.sign_mul]
  rw [← decide_mul_neg hx hy, decide_eq_decide, ← Int.sign_neg_iff, hsign, Int.sign_neg_iff]

theorem divValue_eq_zero_or_msb_eq {a b : Value} (hb : b ≠ 0#256) (h : ¬ (a = minValue ∧ b = wrap256 (-1))) :
    divValue a b = 0#256 ∨ (divValue a b).msb = (a.msb ^^ b.msb) := by
  by_cases hzero : divValue a b = 0#256
  · exact .inl hzero
  · have hquot : a.toInt.tdiv b.toInt ≠ 0 := toInt_divValue hb h ▸ BitVec.toInt_ne.2 hzero
    right
    rw [BitVec.msb_eq_toInt, BitVec.msb_eq_toInt, BitVec.msb_eq_toInt, toInt_divValue hb h, decide_tdiv_neg hquot]

/-- The wrapper's result on the integers, by which the corners are calculated. -/
theorem sdivrem_eq_wrap256 (a : Value) {b : Value} (hb : b ≠ 0#256) :
    sdivrem a b = (wrap256 (a.toInt.tdiv b.toInt), wrap256 (a.toInt - b.toInt * a.toInt.tdiv b.toInt)) := by
  rw [sdivrem_eq_divValue_remValue a hb, divValue_of_ne hb, remValue_of_ne hb, truncQuot]

/-- Settles O28: the wrapper's results are those of DIV and REM; each corner is one calculation on integers. -/
theorem signWrapperLaw : Obligations.SignWrapperLaw := by
  refine ⟨fun a b hb => ⟨sdivrem_eq_wrap256 a hb, ?_⟩, ?_, ?_, ?_, ?_, ?_, ?_, ?_, ?_, ?_⟩
  · rw [sdivrem_eq_divValue_remValue a hb, ← Int.tmod_def]
    exact ⟨toInt_remValue a hb, natAbs_toInt_remValue_lt a hb, remValue_eq_zero_or_msb_eq a hb, toInt_divValue hb⟩
  all_goals
    rw [sdivrem_eq_wrap256 _ (by decide)]
    decide

/-! ### What the commands leave (R124 to R126) -/

theorem exec_div (rd ra rb : RegIdx) (s : State) :
    exec (.div rd ra rb) s = .next (writeReg s rd (divValue (readReg s ra) (readReg s rb))) := rfl

theorem exec_rem (rd ra rb : RegIdx) (s : State) :
    exec (.rem rd ra rb) s = .next (writeReg s rd (remValue (readReg s ra) (readReg s rb))) := rfl

theorem exec_divrem (rd rd2 ra rb : RegIdx) (s : State) :
    exec (.divrem rd rd2 ra rb) s =
      .next (writeReg (writeReg s rd (divValue (readReg s ra) (readReg s rb))) rd2
        (remValue (readReg s ra) (readReg s rb))) := rfl

/-- Settles O29: each frame is that of one register write, and the values written are the datapath's or `DIV0`'s. -/
theorem divideAndRemainderResults : Obligations.DivideAndRemainderResults := by
  intro rd ra rb s
  refine ⟨⟨_, _, exec_div rd ra rb s, writesOnly_writeReg s rd _, fun hb => ⟨divValue_of_ne hb, ?_⟩,
      fun hb => by rw [hb, divValue_zero]⟩,
    ⟨_, _, exec_rem rd ra rb s, writesOnly_writeReg s rd _, fun hb => ⟨remValue_of_ne hb, ?_,
      remValue_eq_zero_or_msb_eq _ hb⟩, fun hb => by rw [hb, remValue_zero]⟩⟩
  all_goals rw [sdivrem_eq_divValue_remValue _ hb]

/-- Settles O30: two register writes, the second of which may overwrite the first. -/
theorem divremResult : Obligations.DivremResult := by
  intro rd rd2 ra rb s
  obtain ⟨hregs, houts⟩ := writeReg_writeReg_frame s rd rd2 (divValue (readReg s ra) (readReg s rb))
    (remValue (readReg s ra) (readReg s rb))
  refine ⟨_, divValue (readReg s ra) (readReg s rb), remValue (readReg s ra) (readReg s rb),
    exec_divrem rd rd2 ra rb s, fun hb => (sdivrem_eq_divValue_remValue _ hb).symm,
    fun hb => by rw [hb, divValue_zero, remValue_zero],
    ⟨_, exec_div rd ra rb s, readReg_writeReg_same s rd _⟩, ⟨_, exec_rem rd2 ra rb s, readReg_writeReg_same s rd2 _⟩,
    readReg_writeReg_same _ rd2 _, fun hne => ?_, ?_, ?_, hregs, houts⟩
  · rw [readReg_writeReg_ne _ hne, readReg_writeReg_same]
  · rw [written_writeReg, written_writeReg, if_pos rfl, ite_self]
  · rw [written_writeReg, if_pos rfl]

/-! ### The laws of the family (R128) -/

/-- The wrapped quotient loses nothing here: the remainder is what modular arithmetic leaves. -/
theorem remValue_eq_sub (a : Value) {b : Value} (hb : b ≠ 0#256) : remValue a b = a - b * divValue a b := by
  rw [remValue_of_ne hb, divValue_of_ne hb, wrap256_sub, wrap256_mul, wrap256_toInt, wrap256_toInt]

theorem addValue_mulValue_divValue_remValue (a : Value) {b : Value} (hb : b ≠ 0#256) :
    addValue (mulValue (divValue a b) b) (remValue a b) = a := by
  rw [addValue_eq_add, mulValue_eq_mul, remValue_eq_sub a hb, BitVec.mul_comm, add_sub_cancel]

theorem divValue_one (a : Value) : divValue a (wrap256 1) = a := by
  have hone : (wrap256 1).toInt = 1 := by decide
  rw [divValue_of_ne (by decide), truncQuot, hone, Int.tdiv_one, wrap256_toInt]

theorem divValue_neg_one (a : Value) : divValue a (wrap256 (-1)) = negValue a := by
  have hneg : (wrap256 (-1)).toInt = -1 := by decide
  rw [divValue_of_ne (by decide), truncQuot, hneg, Int.tdiv_neg, Int.tdiv_one, negValue]

/-- Settles O33: reconstruction modulo `2^256`, the signs and the bound on the integers, and the quotients by 1 and -1. -/
theorem divisionFamilyLaws : Obligations.DivisionFamilyLaws := by
  refine ⟨fun a b hb => ⟨addValue_mulValue_divValue_remValue a hb, natAbs_toInt_remValue_lt a hb,
    remValue_eq_zero_or_msb_eq a hb, fun h => ⟨divValue_eq_zero_or_msb_eq hb h, toInt_divValue hb h⟩⟩, ?_,
    fun a => ⟨divValue_one a, divValue_neg_one a⟩, ?_⟩
  · rw [divValue_neg_one]
    decide
  · rw [divValue_of_ne (by decide)]
    decide

end Sys2Proof.Machine

/-! PROOFS. The observation commands of 45_observe.md R140 and R141: the zero test over words, the word read as a number,
and what the two commands write. -/

namespace Sys2Proof.Machine

/-! ### A value by its words -/

/-- The eight words of a value determine it. -/
theorem eq_of_wordOf_eq {a b : Value} (h : ∀ j, wordOf a j = wordOf b j) : a = b := by
  have hwords : toWords a = toWords b := List.map_congr_left fun j _ => h j
  rw [← ofWords_toWords a, hwords, ofWords_toWords]

/-- Zero is the only value all of whose words are 0 (R140). -/
theorem forall_wordOf_eq_zero_iff (a : Value) : (∀ j, wordOf a j = 0x00000000#32) ↔ a = 0#256 := by
  constructor
  · intro h
    exact eq_of_wordOf_eq fun j => (h j).trans (wordOf_zero j).symm
  · rintro rfl
    exact wordOf_zero

theorem zeroFlag_eq_true_iff (a : Value) : zeroFlag a = true ↔ a = 0#256 := beq_iff_eq

/-- Word `j` is the digit of weight `2^(32*j)` of the unsigned reading. -/
theorem toNat_wordOf (a : Value) (j : WordIdx) : (wordOf a j).toNat = a.toNat / 2 ^ (32 * j.val) % 2 ^ 32 := by
  rw [wordOf, BitVec.extractLsb'_toNat, Nat.shiftRight_eq_div_pow]

/-! ### What the commands leave -/

theorem exec_iszero (ra : RegIdx) (s : State) :
    exec (.iszero ra) s = .next (writeZ s (zeroFlag (readReg s ra))) := rfl

theorem exec_getw (ra : RegIdx) (j : WordIdx) (s : State) :
    exec (.getw ra j) s = .next (writeDout s (wordOf (readReg s ra) j)) := rfl

theorem writeZ_frame (s : State) (b : Bool) :
    SameRegsExcept [] s (writeZ s b) ∧ SameOutputs s { writeZ s b with z := s.z } :=
  ⟨SameRegsExcept.refl [] s, SameOutputs.refl s⟩

theorem writeDout_frame (s : State) (w : Word) :
    SameRegsExcept [] s (writeDout s w) ∧ SameOutputs s { writeDout s w with dout := s.dout } :=
  ⟨SameRegsExcept.refl [] s, SameOutputs.refl s⟩

/-! ### The statements of 45_observe.md -/

/-- Settles O34: the flag compares with the zero pattern, which is the value of the integer 0 and the one whose words are
all 0. -/
theorem isZeroResult : Obligations.IsZeroResult := by
  intro ra s
  have hflag := zeroFlag_eq_true_iff (readReg s ra)
  have hwrap : wrap256 0 = 0#256 := by decide
  refine ⟨_, exec_iszero ra s, ?_, ?_, writeZ_frame s _⟩
  · rw [writeZ_z, hflag, forall_wordOf_eq_zero_iff]
  · rw [writeZ_z, hflag, hwrap]

/-- Settles O35: `DOUT` is the word itself, and the value's sign is the top bit of word 7. -/
theorem getWordResult : Obligations.GetWordResult := by
  intro ra j s
  refine ⟨_, exec_getw ra j s, ?_, ?_, writeDout_frame s _⟩
  · rw [writeDout_dout, toNat_wordOf]
  · rintro rfl
    rw [writeDout_dout, msb_eq_wordOf_seven]

end Sys2Proof.Machine

/-! PROOFS. The decimal renderer of 46_decimal_render.md R150 to R157: the numeral of a magnitude, how many digits it takes,
the smallest capacity that takes a text, and what TODEC leaves in either outcome. -/

namespace Sys2Proof.Machine

/-! ### The digits of a number (R151) -/

/-- A list of decimal digits spells a number below `10^length`. -/
theorem digitsToNat_lt_pow {ds : List Nat} (h : ∀ d ∈ ds, d < 10) : digitsToNat ds < 10 ^ ds.length := by
  induction ds with
  | nil => exact Nat.one_pos
  | cons d ds ih =>
    obtain ⟨hd, hds⟩ := List.forall_mem_cons.1 h
    calc digitsToNat (d :: ds) = d * 10 ^ ds.length + digitsToNat ds := digitsToNat_cons d ds
      _ < d * 10 ^ ds.length + 10 ^ ds.length := Nat.add_lt_add_left (ih hds) _
      _ = (d + 1) * 10 ^ ds.length := (Nat.succ_mul d _).symm
      _ ≤ 10 * 10 ^ ds.length := Nat.mul_le_mul_right _ hd
      _ = 10 ^ (d :: ds).length := (Nat.pow_succ').symm

/-- The bound the other way round from `decDigits_length_le`: `10^k` and above takes more than `k` digits. -/
theorem lt_decDigits_length {m k : Nat} (h : 10 ^ k ≤ m) : k < (decDigits m).length := by
  have hlt := digitsToNat_lt_pow (decDigits_lt_ten m)
  rw [digitsToNat_decDigits] at hlt
  exact (Nat.pow_lt_pow_iff_right (by decide)).1 (h.trans_lt hlt)

/-- Only the numeral 0 begins with a zero. -/
theorem decDigits_eq_of_head_zero {m : Nat} (h : (decDigits m).head? = some 0) : decDigits m = [0] := by
  obtain ⟨d, ds, hds, hzero⟩ := digitsLoop_head (m + 1) m [] (Nat.lt_succ_self m)
  have hd : d = 0 := by simpa [decDigits, hds] using h
  rw [hzero hd]
  rfl

/-! ### The magnitude and the length of its text (R151) -/

theorem magnitude_eq_natAbs (a : Value) : magnitude a = a.toInt.natAbs := by
  rw [magnitude, absValue_eq_abs, toNat_abs_eq_natAbs]

theorem decDigits_magnitude_length_le (a : Value) : (decDigits (magnitude a)).length ≤ 77 :=
  decDigits_length_le (k := 76) (lt_of_le_of_lt (magnitude_le a) (by norm_num))

theorem decimalText_length_of_nonneg {a : Value} (h : a.msb = false) :
    (decimalText a).length = (decDigits (magnitude a)).length := by
  rw [decimalText_length, h, Bool.toNat_false, Nat.zero_add]

theorem decimalText_length_of_neg {a : Value} (h : a.msb = true) :
    (decimalText a).length = (decDigits (magnitude a)).length + 1 := by
  rw [decimalText_length, h, Bool.toNat_true, Nat.add_comm]

/-! ### The smallest capacity that takes a text (R152, R157) -/

theorem textFits_iff (a : Value) (cap : Nat) :
    textFits a cap = true ↔ 9 * groupCount a + 1 ≤ cap ∧ (decimalText a).length + 1 ≤ cap := by
  simp [textFits]

/-- The groups hold all the digits, and one group fewer would not. -/
theorem groupCount_bounds (a : Value) :
    (decDigits (magnitude a)).length ≤ 9 * groupCount a ∧ 9 * groupCount a ≤ (decDigits (magnitude a)).length + 8 := by
  rw [groupCount]
  omega

/-- A text no longer than its groups needs room for the groups and one byte more. -/
theorem textFits_iff_of_length_le {a : Value} (h : (decimalText a).length ≤ 9 * groupCount a) (cap : Nat) :
    textFits a cap = true ↔ 9 * groupCount a + 1 ≤ cap := by
  rw [textFits_iff]
  omega

/-- A value that is not negative: the text is the digits, which the groups hold. -/
theorem boundary_of_nonneg {a : Value} {g : Nat} (hsign : a.msb = false)
    (hlo : 9 * g ≤ (decDigits (magnitude a)).length + 8) (hhi : (decDigits (magnitude a)).length ≤ 9 * g) :
    groupCount a = g ∧ (decimalText a).length = (decDigits (magnitude a)).length ∧
      ∀ cap, textFits a cap = true ↔ 9 * g + 1 ≤ cap := by
  have hL := decimalText_length_of_nonneg hsign
  obtain ⟨hle, hge⟩ := groupCount_bounds a
  obtain rfl : groupCount a = g := by omega
  exact ⟨rfl, hL, textFits_iff_of_length_le (hL ▸ hle)⟩

/-- A negative value with an incomplete group: the sign takes the place of a missing digit. -/
theorem boundary_of_neg_lt {a : Value} (hsign : a.msb = true)
    (h : (decDigits (magnitude a)).length < 9 * groupCount a) :
    (decimalText a).length = (decDigits (magnitude a)).length + 1 ∧
      ∀ cap, textFits a cap = true ↔ 9 * groupCount a + 1 ≤ cap := by
  have hL := decimalText_length_of_neg hsign
  exact ⟨hL, textFits_iff_of_length_le (hL ▸ h)⟩

/-- A negative value whose groups are full: the sign takes one byte more than the groups. -/
theorem boundary_of_neg_eq {a : Value} (hsign : a.msb = true)
    (h : (decDigits (magnitude a)).length = 9 * groupCount a) :
    (decimalText a).length = 9 * groupCount a + 1 ∧ ∀ cap, textFits a cap = true ↔ 9 * groupCount a + 2 ≤ cap := by
  have hL : (decimalText a).length = 9 * groupCount a + 1 := by rw [decimalText_length_of_neg hsign, h]
  refine ⟨hL, fun cap => ?_⟩
  rw [textFits_iff, hL]
  omega

theorem msb_eq_false_of_nonneg {a : Value} (h : 0 ≤ a.toInt) : a.msb = false := by
  rw [BitVec.msb_eq_toInt, decide_eq_false_iff_not]
  exact Int.not_lt.2 h

theorem msb_eq_true_of_neg {a : Value} (h : a.toInt < 0) : a.msb = true := by
  rw [BitVec.msb_eq_toInt, decide_eq_true h]

/-- The general row of R157 for a positive value of `g` groups, of which the rows of one and two groups are instances. -/
theorem boundary_of_groups {a : Value} {g : Nat} (hg : 1 ≤ g) (hlo : 10 ^ (9 * (g - 1)) ≤ a.toInt)
    (hhi : a.toInt ≤ 10 ^ (9 * g) - 1) :
    9 * g - 8 ≤ (decDigits (magnitude a)).length ∧ (decDigits (magnitude a)).length ≤ 9 * g ∧ groupCount a = g ∧
      (decimalText a).length = (decDigits (magnitude a)).length ∧ ∀ cap, textFits a cap = true ↔ 9 * g + 1 ≤ cap := by
  have hpos : 0 ≤ a.toInt := le_trans (by positivity) hlo
  have hm : (magnitude a : Int) = a.toInt := by rw [magnitude_eq_natAbs, Int.natAbs_of_nonneg hpos]
  have hmore : 9 * (g - 1) < (decDigits (magnitude a)).length :=
    lt_decDigits_length (by exact_mod_cast hlo.trans_eq hm.symm)
  have hmost : (decDigits (magnitude a)).length ≤ 9 * g - 1 + 1 := by
    refine decDigits_length_le ?_
    rw [Nat.sub_add_cancel (by omega)]
    exact_mod_cast hm.trans_lt (Int.lt_of_le_sub_one hhi)
  exact ⟨by omega, by omega, boundary_of_nonneg (msb_eq_false_of_nonneg hpos) (by omega) (by omega)⟩

/-- The largest magnitudes of either sign, `2^255` and `2^255 - 1`, lie in this range. -/
theorem decDigits_length_of_large {m : Nat} (hlo : 10 ^ 76 ≤ m) (hhi : m < 10 ^ 77) : (decDigits m).length = 77 :=
  le_antisymm (decDigits_length_le hhi) (lt_decDigits_length hlo)

theorem boundary_zero {a : Value} (h : a.toInt = 0) : (decDigits (magnitude a)).length = 1 ∧ groupCount a = 1 ∧
    (decimalText a).length = 1 ∧ ∀ cap, textFits a cap = true ↔ 10 ≤ cap := by
  have hnd : (decDigits (magnitude a)).length = 1 := by rw [magnitude_eq_natAbs, h]; rfl
  obtain ⟨hG, hL, hcap⟩ := boundary_of_nonneg (g := 1) (msb_eq_false_of_nonneg h.ge) (by omega) (by omega)
  exact ⟨hnd, hG, hL.trans hnd, hcap⟩

/-- One incomplete group and a sign: the smallest capacity is that of a full group (R157). -/
theorem boundary_neg_short {a : Value} (hlo : -99999999 ≤ a.toInt) (hhi : a.toInt ≤ -1) :
    1 ≤ (decDigits (magnitude a)).length ∧ (decDigits (magnitude a)).length ≤ 8 ∧ groupCount a = 1 ∧
      (decimalText a).length = (decDigits (magnitude a)).length + 1 ∧ ∀ cap, textFits a cap = true ↔ 10 ≤ cap := by
  have hm := magnitude_eq_natAbs a
  have hpos := decDigits_length_pos (magnitude a)
  have hnd : (decDigits (magnitude a)).length ≤ 7 + 1 := decDigits_length_le (by omega)
  have hG : groupCount a = 1 := by rw [groupCount]; omega
  obtain ⟨hL, hcap⟩ := boundary_of_neg_lt (a := a) (msb_eq_true_of_neg (by omega)) (by omega)
  rw [hG] at hcap
  exact ⟨hpos, hnd, hG, hL, hcap⟩

/-- A negative value whose digits fill `g` groups. -/
theorem boundary_neg_full {a : Value} {g : Nat} (hg : 1 ≤ g) (hneg : a.toInt < 0) (hlo : 10 ^ (9 * g - 1) ≤ magnitude a)
    (hhi : magnitude a < 10 ^ (9 * g - 1 + 1)) : (decDigits (magnitude a)).length = 9 * g ∧ groupCount a = g ∧
      (decimalText a).length = 9 * g + 1 ∧ ∀ cap, textFits a cap = true ↔ 9 * g + 2 ≤ cap := by
  have hmore := lt_decDigits_length hlo
  have hmost := decDigits_length_le hhi
  have hG : groupCount a = g := by rw [groupCount]; omega
  have hnd : (decDigits (magnitude a)).length = 9 * g := by omega
  obtain ⟨hL, hcap⟩ := boundary_of_neg_eq (msb_eq_true_of_neg hneg) (hG.symm ▸ hnd)
  rw [hG] at hL hcap
  exact ⟨hnd, hG, hL, hcap⟩

theorem boundary_maxValue : (decDigits (magnitude maxValue)).length = 77 ∧ groupCount maxValue = 9 ∧
    (decimalText maxValue).length = 77 ∧ ∀ cap, textFits maxValue cap = true ↔ 82 ≤ cap := by
  have hnd : (decDigits (magnitude maxValue)).length = 77 := decDigits_length_of_large (by decide) (by decide)
  obtain ⟨hG, hL, hcap⟩ := boundary_of_nonneg (a := maxValue) (g := 9) (by decide) (by omega) (by omega)
  exact ⟨hnd, hG, hL.trans hnd, hcap⟩

theorem boundary_minValue : (decDigits (magnitude minValue)).length = 77 ∧ groupCount minValue = 9 ∧
    (decimalText minValue).length = 78 ∧ ∀ cap, textFits minValue cap = true ↔ 82 ≤ cap := by
  have hnd : (decDigits (magnitude minValue)).length = 77 := decDigits_length_of_large (by decide) (by decide)
  have hG : groupCount minValue = 9 := by rw [groupCount, hnd]
  obtain ⟨hL, hcap⟩ := boundary_of_neg_lt (a := minValue) (by decide) (by omega)
  rw [hG] at hcap
  exact ⟨hnd, hG, by omega, hcap⟩

/-! ### What the command leaves (R150, R152, R156) -/

theorem exec_todec (ra : RegIdx) (cap : BitVec 32) (s : State) :
    exec (.todec ra cap) s = .next (deliverText s (render (readReg s ra) cap.toNat)) := rfl

theorem exec_todec_of_fits {ra : RegIdx} {cap : BitVec 32} {s : State} (h : textFits (readReg s ra) cap.toNat = true) :
    exec (.todec ra cap) s = .next (deliverText s (some (decimalText (readReg s ra)))) := by
  rw [exec_todec, render, if_pos h]

theorem exec_todec_of_not_fits {ra : RegIdx} {cap : BitVec 32} {s : State}
    (h : ¬ textFits (readReg s ra) cap.toNat = true) : exec (.todec ra cap) s = .next (deliverText s none) := by
  rw [exec_todec, render, if_neg h]

/-- The delivered text reads back from TEXT. -/
theorem memRead_deliverText_some (s : State) (a : Value) :
    memRead (deliverText s (some (decimalText a))).text 0 (decimalText a).length = some (decimalText a) :=
  memRead_memWrite [] 0 _ ((Nat.zero_add _).trans_le (decimalText_length_le a))

theorem decimalText_minValue : decimalText minValue =
    "-57896044618658097711785492504343953926634992332820282019728792003956564819968".toList.map
      fun c => BitVec.ofNat 8 c.toNat := by
  decide

/-! ### The statements of 46_decimal_render.md -/

/-- Settles O37: the failure condition is that of `textFits`, and either outcome is one delivery. -/
theorem renderResult : Obligations.RenderResult := by
  intro ra cap s a nd G L
  have hL : (decimalText a).length = L := (decimalText_length a).trans (Nat.add_comm _ _)
  have hfits : textFits a cap.toNat = true ↔ ¬ (cap.toNat < 9 * G + 1 ∨ cap.toNat < L + 1) := by
    rw [textFits_iff, hL, not_or, Nat.not_lt, Nat.not_lt]
    rfl
  by_cases h : textFits a cap.toNat = true
  · refine ⟨_, exec_todec_of_fits h, sameButText_deliverText s _, ?_⟩
    rw [if_neg (hfits.1 h), ← hL]
    exact ⟨rfl, len_deliverText_some s a, memRead_deliverText_some s a⟩
  · refine ⟨_, exec_todec_of_not_fits h, sameButText_deliverText s none, ?_⟩
    rw [if_pos (not_not.1 (mt hfits.2 h))]
    exact ⟨rfl, rfl⟩

/-- Settles O38: the numeral's laws are those of `decDigits`, and a magnitude is at most `2^255`, which has 77 digits. -/
theorem textIsTheNumeral : Obligations.TextIsTheNumeral := fun a =>
  ⟨magnitude_eq_natAbs a, rfl, decDigits_lt_ten _, decDigits_eq_of_head_zero, decDigits_length_pos _,
    decDigits_magnitude_length_le a, digitsToNat_decDigits _⟩

/-- Settles O39: each row by the sign of the value and the number of its digits. -/
theorem capacityBoundaries : Obligations.CapacityBoundaries := by
  intro a
  have hm := magnitude_eq_natAbs a
  refine ⟨boundary_zero, fun hlo hhi => ?_, boundary_neg_short, fun hlo hhi => ?_, fun hlo hhi => ?_, fun hlo hhi => ?_,
    fun g hg hlo hhi => boundary_of_groups hg hlo hhi, boundary_of_neg_eq, boundary_of_neg_lt, ?_, ?_⟩
  · exact boundary_of_groups (g := 1) le_rfl (by omega) (by omega)
  · exact boundary_neg_full (g := 1) le_rfl (by omega) (by omega) (by omega)
  · exact boundary_of_groups (g := 2) (by decide) (by omega) (by omega)
  · exact boundary_neg_full (g := 2) (by decide) (by omega) (by omega) (by omega)
  · rintro rfl
    exact boundary_maxValue
  · rintro rfl
    exact boundary_minValue

/-- Settles O40: MIN fits from 82 bytes on, by its row of R157. -/
theorem minimumValueRendering : Obligations.MinimumValueRendering := by
  obtain ⟨-, hG, hL, hcap⟩ := boundary_minValue
  refine ⟨hG, fun ra cap s hra => ?_⟩
  have hfits : textFits (readReg s ra) cap.toNat = true ↔ 82 ≤ cap.toNat := hra ▸ hcap cap.toNat
  by_cases h : 82 ≤ cap.toNat
  · refine ⟨_, exec_todec_of_fits (hfits.2 h), fun _ => ?_, fun hlt => absurd h (Nat.not_le.2 hlt)⟩
    have hread := memRead_deliverText_some s minValue
    rw [hra, ← decimalText_minValue]
    exact ⟨rfl, by rw [deliverText_some_len, hL], hL ▸ hread⟩
  · exact ⟨_, exec_todec_of_not_fits (mt hfits.1 h), fun hle => absurd hle h, fun _ => ⟨rfl, rfl⟩⟩

end Sys2Proof.Machine

/-! PROOFS. The step, reset and the output state: what a step does with the host's next event, the invariant that every step
keeps (10_state.md section 3, 46_decimal_render.md R154, R155), and what the host sees by it. -/

namespace Sys2Proof.Machine

/-! ### One step (70_reset_and_hazards.md R205, R208, R213) -/

theorem step_of_nil {s : State} (h : s.pending = []) : step s = .next s := by
  simp only [step, nextEvent, h, List.head?_nil]

theorem step_of_reset {s : State} {es : List HostEvent} (h : s.pending = .reset :: es) :
    step s = .next (applyReset (takeEvent s)) := by
  simp only [step, nextEvent, h, List.head?_cons]

theorem step_of_command {s : State} {c : Command} {es : List HostEvent} (h : s.pending = .command c :: es) :
    step s = exec (decode c) (takeEvent s) := by
  simp only [step, nextEvent, h, List.head?_cons]

theorem takeEvent_of_cons {s : State} {e : HostEvent} {es : List HostEvent} (h : s.pending = e :: es) :
    takeEvent s = { s with pending := es } := by
  rw [takeEvent, h, List.tail_cons]

theorem step_next (s : State) : ∃ t, step s = .next t := by
  cases h : s.pending with
  | nil => exact ⟨s, step_of_nil h⟩
  | cons e es =>
    cases e with
    | reset => exact ⟨_, step_of_reset h⟩
    | command c => exact step_of_command h ▸ exec_next (decode c) (takeEvent s)

/-- Settles O2: field by field, `decode_encode`. -/
theorem decodeOfEncode : Obligations.DecodeOfEncode := decode_encode

/-- Settles O7: a command at the head of the host's list is decoded and run, and an encoding decodes to its instruction. -/
theorem stepRunsTheDecodedCommand : Obligations.StepRunsTheDecodedCommand := by
  intro s es
  refine ⟨fun c h => ?_, fun i h => ?_⟩
  · rw [step_of_command h, takeEvent_of_cons h]
  · rw [step_of_command h, takeEvent_of_cons h, decode_encode]

/-- Settles O8, by induction on the number of steps. -/
theorem blockHoldsItsState : Obligations.BlockHoldsItsState := by
  intro s k h
  induction k with
  | zero => rfl
  | succ k ih =>
    have hstep : core.step s = .next s := step_of_nil h
    simp only [Host.Core.run, hstep, ih]

/-- Settles O13: no arm of a command and no event of the host ends a step otherwise. -/
theorem everyCommandCompletes : Obligations.EveryCommandCompletes := ⟨exec_next, step_next⟩

/-! ### `STATUS` and the values after reset (10_state.md R22, R26) -/

/-- Settles O36: each bit lies in one of the fields that `STATUS` is made of. -/
theorem statusViewBits : Obligations.StatusViewBits := by
  intro s
  simp only [statusView, BitVec.getLsbD_append, BitVec.getLsbD_ofBool, BitVec.getLsbD_zero]
  refine ⟨by simp, by simp, fun k hlo hhi => ?_, fun k hlo hhi => ?_, fun k hlo => ?_⟩
  · simp [show ¬ k < 1 by omega, show ¬ k - 1 < 1 by omega, show k - 1 - 1 < 6 by omega]
  · simp [show ¬ k < 1 by omega, show ¬ k - 1 < 1 by omega, show ¬ k - 1 - 1 < 6 by omega,
      show k - 1 - 1 - 6 = k - 8 by omega, show k - 8 < 7 by omega]
  · simp [show ¬ k < 1 by omega, show ¬ k - 1 < 1 by omega, show ¬ k - 1 - 1 < 6 by omega,
      show ¬ k - 1 - 1 - 6 < 7 by omega]

theorem statusView_of_cleared {s : State} (hz : s.z = false) (hcapf : s.capf = false) (hlen : s.len = 0#7) :
    statusView s = 0#32 := by
  rw [statusView, hz, hcapf, hlen]
  decide

theorem getElem_noneWritten (r : RegIdx) : noneWritten[r.val] = false := by decide +revert

/-- Settles O9: the fields of the reset state, read off `applyReset`. -/
theorem resetEventClears : Obligations.ResetEventClears := by
  intro s es h
  exact ⟨_, step_of_reset h, rfl, rfl, rfl, statusView_of_cleared rfl rfl rfl, getElem_noneWritten, fun _ => rfl,
    congrArg List.tail h⟩

/-- Settles O10: the fields of the reset state. -/
theorem resetStateValues : Obligations.ResetStateValues :=
  ⟨rfl, rfl, rfl, statusView_of_cleared rfl rfl rfl, getElem_noneWritten, fun _ => rfl⟩

/-! ### The output invariant (R18, R19, R154, R155) -/

/-- The empty result meets the invariant, with either value of `CAPF`. -/
theorem inv_of_empty {s : State} (htext : s.text = []) (hlen : s.len = 0#7) : s.Inv := by
  rw [State.Inv, htext, hlen]
  exact ⟨Memory.wf_nil, rfl, by decide, fun _ => rfl, nofun⟩

/-- The invariant speaks of `CAPF`, `LEN` and TEXT alone. -/
theorem inv_congr {s t : State} (hcapf : t.capf = s.capf) (hlen : t.len = s.len) (htext : t.text = s.text) (h : s.Inv) :
    t.Inv := by
  rwa [State.Inv, hcapf, hlen, htext]

/-- Settles O11: TEXT is empty after reset. -/
theorem resetMeetsOutputInvariant : Obligations.ResetMeetsOutputInvariant := inv_of_empty rfl rfl

/-- Each byte of a text is the minus sign, at index 0 only, or a digit (R151, R154). -/
theorem decimalText_byte {a : Value} {k : Nat} {b : Byte} (h : (decimalText a)[k]? = some b) :
    (k = 0 ∧ b = minusByte) ∨ ∃ d, d < 10 ∧ b = digitByte d := by
  have hdigit {j : Nat} (hj : ((decDigits (magnitude a)).map digitByte)[j]? = some b) :
      ∃ d, d < 10 ∧ b = digitByte d := by
    obtain ⟨d, hd, rfl⟩ := List.mem_map.1 (List.mem_of_getElem? hj)
    exact ⟨d, decDigits_lt_ten _ d hd, rfl⟩
  rw [decimalText] at h
  cases hsign : a.msb with
  | false =>
    rw [hsign, if_neg Bool.false_ne_true, List.nil_append] at h
    exact .inr (hdigit h)
  | true =>
    rw [hsign, if_pos rfl, List.singleton_append] at h
    cases k with
    | zero => exact .inl ⟨rfl, (Option.some.inj h).symm⟩
    | succ k => exact .inr (hdigit h)

/-- Both outcomes of a rendering meet the invariant, whatever stood in TEXT before. -/
theorem inv_deliverText_render (s : State) (a : Value) (cap : Nat) : (deliverText s (render a cap)).Inv := by
  rcases render_cases a cap with ⟨-, h⟩ | ⟨-, h⟩
  · rw [h, State.Inv, len_deliverText_some]
    refine ⟨deliverText_wf s _, ?_, decimalText_length_le a, nofun, ?_⟩
    · rw [text_deliverText_some, List.map_fst_zip (by simp)]
    · rintro ⟨k, b⟩ hc
      rw [text_deliverText_some, List.mem_iff_getElem?] at hc
      obtain ⟨j, hj⟩ := hc
      obtain ⟨hk, hb⟩ := List.getElem?_zip_eq_some.1 hj
      obtain ⟨hlt, hj⟩ := List.getElem?_eq_some_iff.1 hk
      rw [List.getElem_range] at hj
      subst hj
      exact decimalText_byte hb
  · rw [h]
    exact inv_of_empty rfl rfl

/-- TODEC is the one command that writes `CAPF`, `LEN` or TEXT. -/
theorem exec_inv {i : Instr} {s t : State} (hs : s.Inv) (h : exec i s = .next t) : t.Inv := by
  rcases exec_cases h with ⟨rd, -, rfl⟩ | ⟨rd, v, -, rfl⟩ | ⟨rd, rd2, q, r, -, rfl⟩ | ⟨ra, -, rfl⟩ | ⟨ra, j, -, rfl⟩ |
    ⟨ra, cap, -, rfl⟩
  case inr.inr.inr.inr.inr => exact inv_deliverText_render s _ _
  all_goals exact inv_congr rfl rfl rfl hs

/-- Settles O12: nothing happens, a reset leaves TEXT empty, or a command keeps the invariant. -/
theorem stepKeepsOutputInvariant : Obligations.StepKeepsOutputInvariant := by
  intro s t hs h
  rcases step_cases h with ⟨-, rfl⟩ | ⟨es, -, rfl⟩ | ⟨c, es, -, hexec⟩
  · exact hs
  · exact inv_of_empty rfl rfl
  · exact exec_inv (inv_congr (s := s) (t := takeEvent s) rfl rfl rfl hs) hexec

/-! ### What the invariant says of TEXT (R37, R200) -/

theorem cellAt_isSome_iff (m : List Host.Cell) (a : Nat) : (cellAt m a).isSome = true ↔ a ∈ m.map Prod.fst := by
  induction m with
  | nil => simp [cellAt]
  | cons c m ih =>
    obtain ⟨k, b⟩ := c
    rw [cellAt, List.map_cons, List.mem_cons, ← ih]
    split
    · next hk => simp [hk]
    · next hk => simp [Ne.symm hk]

/-- A byte of TEXT holds a value exactly below `LEN`. -/
theorem cellAt_isSome_of_inv {s : State} (h : s.Inv) (a : Nat) : (cellAt s.text a).isSome = true ↔ a < s.len.toNat := by
  obtain ⟨-, hkeys, -⟩ := h
  rw [cellAt_isSome_iff, hkeys, List.mem_range]

/-- Bytes that all hold a value can be read. -/
theorem exists_memRead_eq_some {m : List Host.Cell} {n a : Nat} (h : ∀ i < n, (cellAt m (a + i)).isSome = true) :
    ∃ bs, memRead m a n = some bs := by
  induction n generalizing a with
  | zero => exact ⟨[], rfl⟩
  | succ n ih =>
    obtain ⟨b, hb⟩ := Option.isSome_iff_exists.1 (h 0 n.succ_pos)
    obtain ⟨bs, hbs⟩ := ih (a := a + 1) fun i hi => by
      rw [Nat.add_assoc, Nat.add_comm 1 i]
      exact h (i + 1) (Nat.succ_lt_succ hi)
    rw [Nat.add_zero] at hb
    exact ⟨b :: bs, by simp only [memRead, hb, hbs]⟩

/-- Settles O45: the bytes below `LEN` are those that hold a value. -/
theorem validTextIsReadable : Obligations.ValidTextIsReadable := by
  intro s hs
  obtain ⟨bs, hbs⟩ := exists_memRead_eq_some (m := s.text) (n := s.len.toNat) (a := 0) fun i hi => by
    rw [Nat.zero_add]
    exact (cellAt_isSome_of_inv hs i).2 hi
  exact ⟨bs, hbs, ((memRead_eq_some _ _ _ _).1 hbs).1⟩

/-- Settles O44: a rendering meets the invariant in both outcomes. -/
theorem textAboveLenHasNoValue : Obligations.TextAboveLenHasNoValue := by
  intro ra cap s t h
  obtain rfl := Host.Outcome.next.inj ((exec_todec ra cap s).symm.trans h)
  exact cellAt_isSome_of_inv (inv_deliverText_render s _ _)

/-! ### The capacity failure (R155) -/

/-- No text is empty, so an empty result marks the failure. -/
theorem capf_deliverText_render_iff (s : State) (a : Value) (cap : Nat) :
    (deliverText s (render a cap)).capf = true ↔ (deliverText s (render a cap)).len = 0#7 := by
  rcases render_cases a cap with ⟨-, h⟩ | ⟨-, h⟩
  · rw [h]
    refine iff_of_false Bool.false_ne_true fun hlen => ?_
    have hL := len_deliverText_some s a
    rw [hlen] at hL
    exact absurd hL (decimalText_length_pos a).ne
  · rw [h]
    exact iff_of_true rfl rfl

/-- Settles O43: both outcomes are one delivery, which does not look at the state before. -/
theorem capacityFailureMarker : Obligations.CapacityFailureMarker := by
  refine ⟨fun ra cap s t h => ?_, fun ra cap s s' t t' hreg h h' => ?_⟩
  · obtain rfl := Host.Outcome.next.inj ((exec_todec ra cap s).symm.trans h)
    exact capf_deliverText_render_iff s _ _
  · rw [exec_todec] at h h'
    cases h
    cases h'
    rw [hreg]
    exact deliverText_text_agree s s' _

end Sys2Proof.Machine

/-! PROOFS. What a command does to the registers and their marks, as one update that its sources alone determine
(10_state.md R13, R14, 20_memory.md R36), division by zero (44_divide.md R127), and coinciding operands
(70_reset_and_hazards.md R209). -/

namespace Sys2Proof.Machine

/-! ### A command as an update (R13) -/

/-- The shapes of `exec_cases` with the values written, but without the state they are written to. -/
inductive Update where
  /-- A copy of a register to itself (R68). -/
  | keep
  /-- One register. -/
  | reg (rd : RegIdx) (v : Value)
  /-- The quotient, then the remainder (44_divide.md R126). -/
  | regs (rd rd2 : RegIdx) (q r : Value)
  /-- `Z`. -/
  | flag (b : Bool)
  /-- `DOUT`. -/
  | word (w : Word)
  /-- `CAPF`, `LEN` and TEXT. -/
  | text (o : Option (List Byte))

/-- The state after an update, by the model's own writes. -/
def Update.apply : Update → State → State
  | .keep, s => s
  | .reg rd v, s => writeReg s rd v
  | .regs rd rd2 q r, s => writeReg (writeReg s rd q) rd2 r
  | .flag b, s => writeZ s b
  | .word w, s => writeDout s w
  | .text o, s => deliverText s o

/-- Where its sources hold the same contents, a command does the same update to both states. -/
theorem exec_same_update {i : Instr} {s s' : State} (h : ∀ r ∈ i.sources, readReg s' r = readReg s r) :
    ∃ u : Update, exec i s = .next (u.apply s) ∧ exec i s' = .next (u.apply s') := by
  cases i with
  | zero | fromint => exact ⟨.reg _ _, rfl, rfl⟩
  | mov rd ra =>
    by_cases he : rd = ra
    · subst he
      exact ⟨.keep, exec_mov_self rd s, exec_mov_self rd s'⟩
    · refine ⟨.reg rd (readReg s ra), exec_mov_of_ne he s, ?_⟩
      rw [exec_mov_of_ne he s', h ra (List.mem_singleton_self ra)]
      rfl
  | divrem rd rd2 ra rb =>
    obtain ⟨ha, hb⟩ : readReg s' ra = readReg s ra ∧ readReg s' rb = readReg s rb := by simpa [Instr.sources] using h
    refine ⟨.regs rd rd2 _ _, exec_divrem rd rd2 ra rb s, ?_⟩
    rw [exec_divrem, ha, hb]
    rfl
  | iszero ra =>
    refine ⟨.flag _, exec_iszero ra s, ?_⟩
    rw [exec_iszero, h ra (List.mem_singleton_self ra)]
    rfl
  | getw ra j =>
    refine ⟨.word _, exec_getw ra j s, ?_⟩
    rw [exec_getw, h ra (List.mem_singleton_self ra)]
    rfl
  | todec ra cap =>
    refine ⟨.text _, exec_todec ra cap s, ?_⟩
    rw [exec_todec, h ra (List.mem_singleton_self ra)]
    rfl
  | _ =>
    simp only [Instr.sources, List.forall_mem_cons] at h
    refine ⟨.reg _ _, rfl, ?_⟩
    simp only [← h]
    rfl

/-! ### An update twice (R36) -/

theorem writeReg_writeReg_same (s : State) (r : RegIdx) (v w : Value) :
    writeReg (writeReg s r v) r w = writeReg s r w := by
  simp [writeReg]

/-- Writing a written register's own content to it changes nothing. -/
theorem writeReg_readReg_self {s : State} {r : RegIdx} (h : s.written[r.val] = true) :
    writeReg s r (readReg s r) = s := by
  simp only [writeReg, readReg, ← h, Vector.set_getElem_self]

theorem writeReg_eq_self {s : State} {r : RegIdx} {v : Value} (hv : readReg s r = v) (hw : s.written[r.val] = true) :
    writeReg s r v = s := hv ▸ writeReg_readReg_self hw

theorem Update.apply_apply (u : Update) (s : State) : u.apply (u.apply s) = u.apply s := by
  cases u with
  | keep | flag | word => rfl
  | reg rd v => exact writeReg_writeReg_same s rd v v
  | text o => cases o <;> rfl
  | regs rd rd2 q r =>
    simp only [Update.apply]
    by_cases he : rd = rd2
    · subst he
      simp only [writeReg_writeReg_same]
    · rw [writeReg_eq_self (v := q), writeReg_writeReg_same]
      · rw [readReg_writeReg_ne _ he, readReg_writeReg_same]
      · rw [written_writeReg, written_writeReg, if_pos rfl, ite_self]

/-- Settles O50: the first run leaves the sources as they were, so the second does the same update. -/
theorem repeatingIsIdempotent : Obligations.RepeatingIsIdempotent := by
  intro i s t hdisj h
  have hsrc : ∀ r ∈ i.sources, readReg t r = readReg s r := fun r hr =>
    (exec_sameRegsExcept h r fun hd => hdisj r hd hr).1
  obtain ⟨u, hs, ht⟩ := exec_same_update hsrc
  obtain rfl := Host.Outcome.next.inj (hs.symm.trans h)
  rw [ht, Update.apply_apply]

/-! ### Unwritten contents (R14, R207) -/

theorem agreeOnWritten_writeReg {s s' : State} (h : AgreeOnWritten s s') (rd : RegIdx) (v : Value) :
    AgreeOnWritten (writeReg s rd v) (writeReg s' rd v) := by
  obtain ⟨hmark, hval, houts⟩ := h
  refine ⟨?_, fun r hr => ?_, houts⟩
  · rw [writeReg_written, writeReg_written, hmark]
  · rw [readReg_writeReg, readReg_writeReg]
    split
    · rfl
    · next hne =>
      rw [written_writeReg, if_neg hne] at hr
      exact hval r hr

theorem agreeOnWritten_apply {s s' : State} (h : AgreeOnWritten s s') (u : Update) :
    AgreeOnWritten (u.apply s) (u.apply s') := by
  cases u with
  | keep => exact h
  | reg rd v => exact agreeOnWritten_writeReg h rd v
  | regs rd rd2 q r => exact agreeOnWritten_writeReg (agreeOnWritten_writeReg h rd q) rd2 r
  | flag b =>
    obtain ⟨hmark, hval, -, houts⟩ := h
    exact ⟨hmark, hval, rfl, houts⟩
  | word w =>
    obtain ⟨hmark, hval, hz, hcapf, hlen, htext, -, hhost⟩ := h
    exact ⟨hmark, hval, hz, hcapf, hlen, htext, rfl, hhost⟩
  | text o =>
    obtain ⟨hmark, hval, hz, -, -, -, houts⟩ := h
    obtain ⟨hcapf, hlen, htext⟩ := deliverText_text_agree s' s o
    cases o <;> exact ⟨hmark, hval, hz, hcapf, hlen, htext, houts⟩

/-- Settles O48: written sources hold the same contents in both states, so both get the same update. -/
theorem unwrittenRegistersDoNotMatter : Obligations.UnwrittenRegistersDoNotMatter := by
  intro i s s' h hreads
  have ⟨_, hval, _⟩ := h
  obtain ⟨u, hs, hs'⟩ := exec_same_update fun r hr => hval r (hreads r hr)
  exact ⟨_, _, hs, hs', agreeOnWritten_apply h u⟩

/-! ### The written marks (R14, R52) -/

/-- A command marks its destinations, unless it is the copy of a register to itself. -/
theorem exec_written_iff {i : Instr} {s t : State} (h : exec i s = .next t) (r : RegIdx) :
    t.written[r.val] = true ↔ s.written[r.val] = true ∨ r ∈ i.dests ∧ i ≠ .mov r r := by
  by_cases hself : i = .mov r r
  · subst hself
    obtain rfl := Host.Outcome.next.inj ((exec_mov_self r s).symm.trans h)
    simp
  · simp only [ne_eq, hself, not_false_eq_true, and_true]
    rcases exec_cases h with ⟨rd, rfl, rfl⟩ | ⟨rd, v, hd, rfl⟩ | ⟨rd, rd2, q, v, hd, rfl⟩ | ⟨ra, rfl, rfl⟩ |
      ⟨ra, j, rfl, rfl⟩ | ⟨ra, cap, rfl, rfl⟩
    · have hne : r ≠ rd := fun he => hself (he ▸ rfl)
      simp [Instr.dests, hne]
    · rw [written_writeReg, hd, List.mem_singleton]
      by_cases he : r = rd <;> simp [he]
    · rw [written_writeReg, written_writeReg, hd, List.mem_pair]
      by_cases he : r = rd <;> by_cases he2 : r = rd2 <;> simp [he, he2]
    · simp [Instr.dests]
    · simp [Instr.dests]
    · simp [Instr.dests]

/-- Settles O49: a step that is not a reset keeps the marks, or is a command's. -/
theorem writtenUntilReset : Obligations.WrittenUntilReset := by
  intro s t r h hreset
  rcases step_cases h with ⟨hp, rfl⟩ | ⟨es, hp, -⟩ | ⟨c, es, hp, hexec⟩
  · simp [hp]
  · exact absurd (congrArg List.head? hp) hreset
  · rw [exec_written_iff hexec r, takeEvent_written, hp]
    simp

/-! ### Division by zero (R127, R188) -/

/-- Settles O31: the zero-divisor clauses of O29 and O30. -/
theorem zeroDivisorCompletes : Obligations.ZeroDivisorCompletes := by
  intro rd rd2 ra rb s hb
  obtain ⟨⟨t, v, ht, hframe, -, hv⟩, t', v', ht', hframe', -, hv'⟩ := divideAndRemainderResults rd ra rb s
  obtain ⟨u, q, r, hu, -, hqr, -, -, hr, hq, hmark, hmark2, hregs, houts⟩ := divremResult rd rd2 ra rb s
  obtain ⟨rfl, rfl⟩ := Prod.mk.inj (hqr hb)
  exact ⟨⟨t, ht, hv hb ▸ hframe⟩, ⟨t', ht', hv' hb ▸ hframe'⟩, u, hu, hr, hq, hmark, hmark2, hregs, houts⟩

/-! ### Coinciding operands (R209) -/

theorem divValue_self {a : Value} (h : a ≠ 0#256) : divValue a a = wrap256 1 := by
  rw [divValue_of_ne h, truncQuot, Int.tdiv_self (BitVec.toInt_ne.2 h)]

/-- Settles O51: each command's result law at the old contents. -/
theorem aliasedOperands : Obligations.AliasedOperands := by
  refine ⟨fun r s => ⟨⟨_, exec_add r r r s, ?_⟩, ⟨_, exec_neg r r s, ?_⟩, ⟨_, exec_mul r r r s, ?_⟩⟩,
    fun d r s => ⟨⟨_, exec_sub d r r s, ?_⟩, fun hr => ⟨_, exec_div d r r s, ?_⟩⟩,
    fun p q s hpq hq => ⟨_, exec_divrem p q p q s, ?_, ?_⟩⟩
  · rw [readReg_writeReg_same, addValue, two_mul]
  · rw [readReg_writeReg_same, negValue]
  · rw [readReg_writeReg_same, mulValue, pow_two]
  · rw [readReg_writeReg_same, subValue, Int.sub_self]
  · rw [readReg_writeReg_same, divValue_self hr]
  · rw [readReg_writeReg_ne _ hpq, readReg_writeReg_same, divValue_of_ne hq, truncQuot]
  · rw [readReg_writeReg_same, remValue_of_ne hq, truncQuot]

end Sys2Proof.Machine

/-! PROOFS. The restoring datapath with a zero divisor (44_divide.md R127): every step but the last sets its quotient
bit, so the quotient register fills with ones, and the dividend moves into the remainder. -/

namespace Sys2Proof.Machine

/-- Putting the quotient bit in is shifting it in. -/
theorem shl1Value_false_or_one (q : Value) : shl1Value q false ||| 1#256 = shl1Value q true := by
  apply BitVec.eq_of_getLsbD_eq
  intro k hk
  rw [BitVec.getLsbD_or]
  cases k with
  | zero => simp [getLsbD_shl1Value_zero]
  | succ k => simp [getLsbD_shl1Value_succ _ _ (Nat.lt_of_succ_lt_succ hk)]

/-- The quotient bit of a step by zero: 0 only when the shifted remainder has its top bit set. -/
def zeroStepBit (qr : Value × Value) : Bool := !(shl1Value qr.2 qr.1.msb).msb

theorem udivStep_zero_eq (qr : Value × Value) :
    udivStep 0#256 qr = (shl1Value qr.1 (zeroStepBit qr), shl1Value qr.2 qr.1.msb) := by
  obtain ⟨q, r⟩ := qr
  rw [udivStep_zero, zeroStepBit]
  cases (shl1Value r q.msb).msb
  · rw [if_neg Bool.false_ne_true, shl1Value_false_or_one]
    rfl
  · rfl

/-- A step by zero doubles the pair and adds the quotient bit at the bottom. -/
theorem pairNat_udivStep_zero (qr : Value × Value) :
    pairNat (udivStep 0#256 qr) = (2 * pairNat qr + (zeroStepBit qr).toNat) % 2 ^ 512 := by
  rw [udivStep_zero_eq, pairNat, pairNat, Nat.mul_comm, shl1Value_pair, Nat.mul_comm (2 ^ 256) qr.2.toNat]

/-- While the remainder has room the bit is 1, so the pair plus 1 doubles. -/
theorem pairNat_udivStep_zero_of_le {qr : Value × Value} (h : pairNat qr + 1 ≤ 2 ^ 510) :
    pairNat (udivStep 0#256 qr) + 1 = 2 * (pairNat qr + 1) := by
  have hm := Bool.toNat_le qr.1.msb
  have hmsb : (shl1Value qr.2 qr.1.msb).msb = false := by
    rw [BitVec.msb_eq_false_iff_two_mul_lt, shl1Value_toNat]
    rw [pairNat] at h
    omega
  rw [pairNat_udivStep_zero, zeroStepBit, hmsb, Bool.not_false, Bool.toNat_true]
  omega

theorem pairNat_udivLoop_zero (k : Nat) (qr : Value × Value) (h : 2 ^ k * (pairNat qr + 1) ≤ 2 ^ 511) :
    pairNat (udivLoop 0#256 k qr) + 1 = 2 ^ k * (pairNat qr + 1) := by
  induction k generalizing qr with
  | zero => simp [udivLoop]
  | succ k ih =>
    have hpos : 1 ≤ 2 ^ k := Nat.one_le_two_pow
    have hstep : pairNat (udivStep 0#256 qr) + 1 = 2 * (pairNat qr + 1) := by
      refine pairNat_udivStep_zero_of_le ?_
      have hle := Nat.mul_le_mul_right (pairNat qr + 1) hpos
      rw [pow_succ, Nat.mul_right_comm] at h
      omega
    have hpow : 2 ^ (k + 1) * (pairNat qr + 1) = 2 ^ k * (2 * (pairNat qr + 1)) := by rw [pow_succ, Nat.mul_assoc]
    rw [hpow] at h ⊢
    rw [udivLoop, ih _ (hstep.symm ▸ h), hstep]

theorem udivLoop_succ_last (d : Value) (n : Nat) (qr : Value × Value) :
    udivLoop d (n + 1) qr = udivStep d (udivLoop d n qr) := by
  induction n generalizing qr with
  | zero => rfl
  | succ n ih => rw [udivLoop, ih, ← udivLoop]

/-- The dividend ends up in the remainder; the quotient bits are ones, the last one only where the dividend's top bit is 0. -/
theorem udivrem_zero (n : Value) : udivrem n 0#256 = (if n.msb then wrap256 (-2) else wrap256 (-1), n) := by
  have hn := n.isLt
  have hinit : pairNat (n, 0#256) = n.toNat := by simp [pairNat]
  have hloop := pairNat_udivLoop_zero 255 (n, 0#256) (by rw [hinit]; omega)
  rw [hinit] at hloop
  rw [udivrem, udivLoop_succ_last, udivStep_zero_eq]
  set qr := udivLoop 0#256 255 (n, 0#256)
  have hq := qr.1.isLt
  have hqm := two_mul_toNat_split qr.1
  rw [pairNat] at hloop
  have hR : shl1Value qr.2 qr.1.msb = n := by
    apply BitVec.eq_of_toNat_eq
    rw [shl1Value_toNat]
    omega
  rw [zeroStepBit, hR]
  refine Prod.ext (BitVec.eq_of_toNat_eq ?_) rfl
  rw [shl1Value_toNat]
  cases n.msb with
  | false =>
    have hones : (wrap256 (-1)).toNat = 2 ^ 256 - 1 := by decide
    rw [Bool.not_false, Bool.toNat_true, if_neg Bool.false_ne_true, hones]
    omega
  | true =>
    have hones : (wrap256 (-2)).toNat = 2 ^ 256 - 2 := by decide
    rw [Bool.not_true, Bool.toNat_false, if_pos rfl, hones]
    omega

/-- The magnitude has its top bit set for MIN alone. -/
theorem msb_absValue (a : Value) : (absValue a).msb = decide (a = minValue) := by
  simp [absValue_eq_abs, BitVec.msb_abs, minValue_eq_intMin]

/-- Settles O32: the sign wrapper on `udivrem_zero`. -/
theorem zeroDivisorDatapath : Obligations.ZeroDivisorDatapath := by
  intro a
  have habs : absValue 0#256 = 0#256 := by decide
  have hmsb : (0#256).msb = false := by decide
  rw [sdivrem, habs, udivrem_zero, msb_absValue, hmsb, Bool.xor_false, div0Algo]
  by_cases hmin : a = minValue
  · subst hmin
    decide
  · cases hsign : a.msb with
    | false => simp [hmin, absValue, hsign]
    | true =>
      have hone : -wrap256 (-1) = 1#256 := by decide
      simp [hmin, absValue, hsign, negValue_eq_neg, hone]

end Sys2Proof.Machine

/-! PROOFS. The chunk-peeling datapath of 46_decimal_render.md R153 delivers the text of the result law: a numeral is
determined by the number it spells, the peeled groups spell the magnitude, and the slots run out exactly when the groups do
not fit. With it, the text read back (R158). -/

namespace Sys2Proof.Machine

/-! ### A numeral is determined by its number (R151) -/

/-- Decimal digits, at least one, without a leading zero but in the numeral 0. -/
def IsNumeral (ds : List Nat) : Prop := ds ≠ [] ∧ (∀ d ∈ ds, d < 10) ∧ (ds.head? = some 0 → ds = [0])

theorem isNumeral_decDigits (m : Nat) : IsNumeral (decDigits m) :=
  ⟨List.ne_nil_of_length_pos (decDigits_length_pos m), decDigits_lt_ten m, decDigits_eq_of_head_zero⟩

theorem digitsToNat_append (ds es : List Nat) :
    digitsToNat (ds ++ es) = digitsToNat ds * 10 ^ es.length + digitsToNat es := by
  induction ds with
  | nil => simp [digitsToNat]
  | cons d ds ih =>
    rw [List.cons_append, digitsToNat_cons, digitsToNat_cons, ih, List.length_append, pow_add]
    ring

/-- Mathlib's digits come least significant first. -/
theorem digitsToNat_eq_ofDigits (ds : List Nat) : digitsToNat ds = Nat.ofDigits 10 ds.reverse := by
  induction ds with
  | nil => rfl
  | cons d ds ih =>
    rw [digitsToNat_cons, ih, List.reverse_cons, Nat.ofDigits_append, Nat.ofDigits_singleton, List.length_reverse]
    ring

theorem reverse_digits_digitsToNat {ds : List Nat} (h : IsNumeral ds) (h0 : ds ≠ [0]) :
    (Nat.digits 10 (digitsToNat ds)).reverse = ds := by
  obtain ⟨hne, hlt, hhead⟩ := h
  rw [digitsToNat_eq_ofDigits, Nat.digits_ofDigits 10 (by decide), List.reverse_reverse]
  · exact fun d hd => hlt d (List.mem_reverse.1 hd)
  · intro hrev hlast
    rw [List.getLast_reverse] at hlast
    exact h0 (hhead (List.head?_eq_some_head hne ▸ congrArg some hlast))

theorem eq_zero_iff_of_isNumeral {ds : List Nat} (h : IsNumeral ds) : ds = [0] ↔ digitsToNat ds = 0 := by
  refine ⟨fun h0 => h0 ▸ rfl, fun hval => by_contra fun h0 => h.1 ?_⟩
  rw [← reverse_digits_digitsToNat h h0, hval, Nat.digits_zero, List.reverse_nil]

theorem eq_of_digitsToNat_eq {ds es : List Nat} (hds : IsNumeral ds) (hes : IsNumeral es)
    (h : digitsToNat ds = digitsToNat es) : ds = es := by
  by_cases h0 : ds = [0]
  · rw [h0, (eq_zero_iff_of_isNumeral hes).2 (h ▸ (eq_zero_iff_of_isNumeral hds).1 h0)]
  · have h0' : es ≠ [0] := fun he => h0 ((eq_zero_iff_of_isNumeral hds).2 (h ▸ (eq_zero_iff_of_isNumeral hes).1 he))
    rw [← reverse_digits_digitsToNat hds h0, h, reverse_digits_digitsToNat hes h0']

/-! ### Stripped zeros and nine-digit groups (R153) -/

theorem digitsToNat_stripZeros (ds : List Nat) : digitsToNat (stripZeros ds) = digitsToNat ds := by
  fun_induction stripZeros ds with
  | case1 d ds ih => rw [ih, digitsToNat_cons 0, Nat.zero_mul, Nat.zero_add]
  | case2 => rfl

theorem isNumeral_stripZeros {ds : List Nat} (hne : ds ≠ []) (hlt : ∀ d ∈ ds, d < 10) : IsNumeral (stripZeros ds) := by
  fun_induction stripZeros ds with
  | case1 d ds ih => exact ih (List.cons_ne_nil _ _) fun e he => hlt e (List.mem_cons_of_mem 0 he)
  | case2 ds hstop =>
    refine ⟨hne, hlt, fun hhead => ?_⟩
    cases ds with
    | nil => exact absurd rfl hne
    | cons d ds =>
      obtain rfl := Option.some.inj hhead
      cases ds with
      | nil => rfl
      | cons e ds => exact absurd rfl (hstop e ds)

theorem nineDigits_lt_ten (n : Nat) : ∀ d ∈ nineDigits n, d < 10 := by
  intro d hd
  obtain ⟨k, -, rfl⟩ := List.mem_map.1 hd
  exact Nat.mod_lt _ (by decide)

theorem length_nineDigits (n : Nat) : (nineDigits n).length = 9 := by
  rw [nineDigits, List.length_map, List.length_reverse, List.length_range]

/-- The lowest `k` digits of a number spell its residue modulo `10^k`. -/
theorem digitsToNat_lowDigits (n k : Nat) :
    digitsToNat ((List.range k).reverse.map fun j => n / 10 ^ j % 10) = n % 10 ^ k := by
  induction k with
  | zero => rw [pow_zero, Nat.mod_one]; rfl
  | succ k ih =>
    rw [List.range_succ, List.reverse_append, List.reverse_singleton, List.singleton_append, List.map_cons,
      digitsToNat_cons, ih, List.length_map, List.length_reverse, List.length_range, Nat.mod_pow_succ]
    ring

theorem digitsToNat_nineDigits (n : Nat) : digitsToNat (nineDigits n) = n % 10 ^ 9 := digitsToNat_lowDigits n 9

/-! ### Peeling (R153) -/

theorem toNat_chunk : chunk.toNat = 10 ^ 9 := by decide

theorem peelGroups_succ (slots : Nat) (m : Value) (buf : List Nat) :
    peelGroups (slots + 1) m buf =
      if m / chunk = 0#256 then (m / chunk, (m % chunk).toNat :: buf)
      else peelGroups slots (m / chunk) ((m % chunk).toNat :: buf) := by
  rw [peelGroups, udivrem_eq (by decide) (by decide)]

/-- Each slot takes nine digits off. -/
theorem toNat_peelGroups_fst (slots : Nat) (m : Value) (buf : List Nat) :
    (peelGroups slots m buf).1.toNat = m.toNat / 10 ^ (9 * slots) := by
  induction slots generalizing m buf with
  | zero => simp [peelGroups]
  | succ slots ih =>
    have hdiv : m.toNat / 10 ^ (9 * (slots + 1)) = (m / chunk).toNat / 10 ^ (9 * slots) := by
      rw [BitVec.toNat_udiv, toNat_chunk, Nat.div_div_eq_div_mul, ← pow_add, Nat.mul_succ, Nat.add_comm]
    rw [peelGroups_succ, hdiv]
    split
    · next hzero => rw [hzero, BitVec.toNat_zero, Nat.zero_div]
    · exact ih _ _

/-- The first slot always takes a group. -/
theorem peelGroups_snd_ne_nil {slots : Nat} {m : Value} {buf : List Nat} (h : buf ≠ [] ∨ slots ≠ 0) :
    (peelGroups slots m buf).2 ≠ [] := by
  induction slots generalizing m buf with
  | zero => exact h.resolve_right (not_not_intro rfl)
  | succ slots ih =>
    rw [peelGroups_succ]
    split
    · exact List.cons_ne_nil _ _
    · exact ih (.inl (List.cons_ne_nil _ _))

/-- The digits of the peeled groups. -/
def groupDigits (buf : List Nat) : List Nat := buf.flatMap nineDigits

theorem groupDigits_cons (g : Nat) (buf : List Nat) : groupDigits (g :: buf) = nineDigits g ++ groupDigits buf := rfl

theorem groupDigits_lt_ten (buf : List Nat) : ∀ d ∈ groupDigits buf, d < 10 := by
  intro d hd
  obtain ⟨g, -, hg⟩ := List.mem_flatMap.1 hd
  exact nineDigits_lt_ten g d hg

theorem groupDigits_ne_nil {buf : List Nat} (h : buf ≠ []) : groupDigits buf ≠ [] := by
  obtain ⟨g, gs, rfl⟩ := List.exists_cons_of_ne_nil h
  refine List.ne_nil_of_length_pos ?_
  rw [groupDigits_cons, List.length_append, length_nineDigits]
  omega

/-- What is left of the magnitude followed by the digits peeled so far, as one number. -/
def peeledNat (p : Value × List Nat) : Nat :=
  p.1.toNat * 10 ^ (groupDigits p.2).length + digitsToNat (groupDigits p.2)

theorem peeledNat_peel_one (m : Value) (buf : List Nat) :
    peeledNat (m / chunk, (m % chunk).toNat :: buf) = peeledNat (m, buf) := by
  have hsplit := Nat.div_add_mod m.toNat (10 ^ 9)
  simp only [peeledNat, groupDigits_cons, digitsToNat_append, List.length_append, length_nineDigits,
    digitsToNat_nineDigits, BitVec.toNat_udiv, BitVec.toNat_umod, toNat_chunk, Nat.mod_mod, pow_add]
  linear_combination (10 ^ (groupDigits buf).length) * hsplit

/-- Peeling keeps the number. -/
theorem peeledNat_peelGroups (slots : Nat) (m : Value) (buf : List Nat) :
    peeledNat (peelGroups slots m buf) = peeledNat (m, buf) := by
  induction slots generalizing m buf with
  | zero => rfl
  | succ slots ih =>
    rw [peelGroups_succ]
    split
    · exact peeledNat_peel_one m buf
    · rw [ih, peeledNat_peel_one]

/-! ### The datapath of TODEC (R152, R153) -/

/-- The slots run out, or there are none, exactly when the groups do not fit in them. -/
theorem peelGroups_fails_iff (a : Value) (slots : Nat) :
    ((peelGroups slots (absValue a) []).1 ≠ 0#256 ∨ (peelGroups slots (absValue a) []).2 = []) ↔
      slots < groupCount a := by
  have hpos := decDigits_length_pos (magnitude a)
  obtain ⟨hle, hge⟩ := groupCount_bounds a
  cases slots with
  | zero => exact iff_of_true (.inr rfl) (by omega)
  | succ slots =>
    have hfst := toNat_peelGroups_fst (slots + 1) (absValue a) []
    rw [or_iff_left (peelGroups_snd_ne_nil (.inr slots.succ_ne_zero)), ne_eq, ← BitVec.toNat_inj, hfst,
      BitVec.toNat_zero, Nat.div_eq_zero_iff_lt (by positivity), ← magnitude, Nat.not_lt]
    constructor
    · intro hbig
      have hnd := lt_decDigits_length hbig
      omega
    · intro hlt
      by_contra hsmall
      have hnd : (decDigits (magnitude a)).length ≤ 9 * slots + 8 + 1 := decDigits_length_le (Nat.not_le.1 hsmall)
      omega

/-- When nothing is left, the peeled digits without their leading zeros are the numeral of the magnitude. -/
theorem stripZeros_groupDigits_peelGroups {a : Value} {slots : Nat} (hdone : (peelGroups slots (absValue a) []).1 = 0#256)
    (hne : (peelGroups slots (absValue a) []).2 ≠ []) :
    stripZeros (groupDigits (peelGroups slots (absValue a) []).2) = decDigits (magnitude a) := by
  refine eq_of_digitsToNat_eq (isNumeral_stripZeros (groupDigits_ne_nil hne) (groupDigits_lt_ten _))
    (isNumeral_decDigits _) ?_
  have hnum := peeledNat_peelGroups slots (absValue a) []
  rw [peeledNat, hdone, BitVec.toNat_zero, Nat.zero_mul, Nat.zero_add] at hnum
  rw [digitsToNat_stripZeros, digitsToNat_decDigits, hnum]
  simp [peeledNat, groupDigits, digitsToNat, magnitude]

theorem renderPath_eq_ite (a : Value) (cap : Nat) :
    renderPath a cap =
      if (cap - 1) / 9 < groupCount a then none
      else if cap < (decimalText a).length + 1 then none else some (decimalText a) := by
  have hslots : (if cap < 10 then 0 else (cap - 1) / 9) = (cap - 1) / 9 := by
    split
    · omega
    · rfl
  simp only [renderPath, hslots, peelGroups_fails_iff]
  split
  · rfl
  · next hfit =>
    obtain ⟨hdone, hne⟩ := not_or.1 (mt (peelGroups_fails_iff a _).1 hfit)
    rw [← groupDigits, stripZeros_groupDigits_peelGroups (not_not.1 hdone) hne, decimalText]

theorem renderPath_eq_render (a : Value) (cap : Nat) : renderPath a cap = render a cap := by
  have hpos := decDigits_length_pos (magnitude a)
  obtain ⟨hle, -⟩ := groupCount_bounds a
  have hfits := textFits_iff a cap
  rw [renderPath_eq_ite, render]
  by_cases hG : (cap - 1) / 9 < groupCount a
  · rw [if_pos hG, if_neg (mt hfits.1 (by omega))]
  · rw [if_neg hG]
    by_cases hL : cap < (decimalText a).length + 1
    · rw [if_pos hL, if_neg (mt hfits.1 (by omega))]
    · rw [if_neg hL, if_pos (hfits.2 (by omega))]

/-- Settles O41: the peeled text is the numeral's, and it fails where the groups or the text do not fit. -/
theorem rendererDatapathAgrees : Obligations.RendererDatapathAgrees := renderPath_eq_render

/-! ### The text read back (R158) -/

theorem toNat_digitByte {d : Nat} (h : d < 10) : (digitByte d).toNat - 0x30 = d := by
  rw [digitByte, BitVec.toNat_ofNat]
  omega

theorem foldl_digitByte {ds : List Nat} (h : ∀ d ∈ ds, d < 10) :
    (ds.map digitByte).foldl (fun n b => 10 * n + (b.toNat - 0x30)) 0 = digitsToNat ds := by
  rw [List.foldl_map, digitsToNat]
  refine List.foldl_ext _ _ _ fun n d hd => ?_
  rw [toNat_digitByte (h d hd)]

/-- The bytes after the sign, if there is one. -/
theorem decimalText_unsigned (a : Value) :
    (if a.msb then (decimalText a).tail else decimalText a) = (decDigits (magnitude a)).map digitByte := by
  rw [decimalText]
  cases a.msb <;> rfl

theorem toInt_eq_ite_magnitude (a : Value) : a.toInt = if a.msb then -(magnitude a : Int) else magnitude a := by
  rw [magnitude_eq_natAbs, BitVec.msb_eq_toInt]
  split
  · next h => rw [Int.ofNat_natAbs_of_nonpos (Int.le_of_lt (of_decide_eq_true h)), Int.neg_neg]
  · next h => rw [Int.natAbs_of_nonneg (by simpa using h)]

/-- A 64-bit integer has at most 19 digits, so three groups, and with its sign 20 bytes. -/
theorem textFits_immValue (imm : BitVec 64) {cap : Nat} (h : 28 ≤ cap) : textFits (immValue imm) cap = true := by
  have hlo := imm.le_toInt
  have hhi := imm.toInt_lt
  have hm : magnitude (immValue imm) < 10 ^ (18 + 1) := by
    rw [magnitude_eq_natAbs, toInt_immValue]
    omega
  have hnd := decDigits_length_le hm
  have hsign := Bool.toNat_le (immValue imm).msb
  rw [textFits_iff, groupCount, decimalText_length]
  omega

/-- Settles O42: the digits spell the magnitude, and the sign byte tells the sign. -/
theorem textRoundTrip : Obligations.TextRoundTrip := by
  refine ⟨fun a => ⟨fun hsign => ?_, ?_⟩, fun imm cap hcap => ?_⟩
  · rw [decimalText, hsign]
    rfl
  · rw [decimalText_unsigned, foldl_digitByte (decDigits_lt_ten _), digitsToNat_decDigits]
    exact toInt_eq_ite_magnitude a
  · rw [render, if_pos (textFits_immValue imm hcap)]

end Sys2Proof.Machine

/-! PROOFS. The two levels agree (00_scope.md R9): here the datapaths of construction and observation, then every command by
the comparisons of this part and of the parts above. -/

namespace Sys2Proof.Machine

theorem zeroWords_eq : zeroWords = 0#256 := by decide

/-- The six words above the immediate are the sign's fill. -/
theorem fromintPath_eq_immValue (imm : BitVec 64) : fromintPath imm = immValue imm := by
  have hlow0 : wordOf (immValue imm) 0 = imm.extractLsb' 0 32 := extractLsb'_immValue_low imm (by decide)
  have hlow1 : wordOf (immValue imm) 1 = imm.extractLsb' 32 32 := extractLsb'_immValue_low imm (by decide)
  rw [← ofWords_toWords (immValue imm), toWords_eq, hlow0, hlow1]
  simp (disch := decide) only [wordOf_immValue_high]
  rfl

theorem zeroPath_eq_zeroFlag (a : Value) : zeroPath a = zeroFlag a := by
  rw [Bool.eq_iff_iff, zeroFlag_eq_true_iff, ← forall_wordOf_eq_zero_iff, zeroPath, toWords]
  simp

theorem toWords_getD (a : Value) (j : WordIdx) : (toWords a).getD j.val 0#32 = wordOf a j := by
  simp [toWords]

/-- Settles O46, command by command: each datapath computes its result law. -/
theorem commandsFollowTheirDatapaths : Obligations.CommandsFollowTheirDatapaths := by
  intro i s hdiv
  cases i with
  | zero rd => rw [exec_zero, execPath, zeroWords_eq]
  | fromint rd imm => rw [exec_fromint, execPath, fromintPath_eq_immValue]
  | mov rd ra =>
    rw [execPath, ofWords_toWords]
    rfl
  | add rd ra rb => rw [exec_add, execPath, addPath_eq_addValue]
  | sub rd ra rb => rw [exec_sub, execPath, subPath_eq_subValue]
  | neg rd ra => rw [exec_neg, execPath, negPath_eq_negValue]
  | abs rd ra => rw [exec_abs, execPath, absPath_eq_absValue]
  | shl1 rd ra cin => rw [exec_shl1, execPath, shl1Path_eq_shl1Value]
  | shr1 rd ra cin => rw [exec_shr1, execPath, shr1Path_eq_shr1Value]
  | mul rd ra rb => rw [exec_mul, execPath, mulPath_eq_mulValue]
  | div rd ra rb => rw [exec_div, execPath, sdivrem_eq_divValue_remValue _ hdiv]
  | rem rd ra rb => rw [exec_rem, execPath, sdivrem_eq_divValue_remValue _ hdiv]
  | divrem rd rd2 ra rb => rw [exec_divrem, execPath, sdivrem_eq_divValue_remValue _ hdiv]
  | iszero ra => rw [exec_iszero, execPath, zeroPath_eq_zeroFlag]
  | getw ra widx => rw [exec_getw, execPath, toWords_getD]
  | todec ra cap => rw [exec_todec, execPath, renderPath_eq_render]

end Sys2Proof.Machine
